-- ==== Sys2Proof/Word.lean ====
section
/-! DEFINITION. The words of the block: a byte (R13), the 32-bit command word (R68), the 7-byte address field (R56),
a callsign as a byte sequence of any length (R81) and the six characters a decode gives (R83). -/

namespace Sys2Proof

/-- A byte: 8 bits, bit 0 the least significant (00_scope.md R13). -/
abbrev Byte := BitVec 8

/-- A command word, format `CMD` (30_encoding.md R68). -/
abbrev CommandWord := BitVec 32

/-- An address field `a[0..6]`: six character bytes, then the SSID byte (30_encoding.md R56; indices from 0, R14). -/
abbrev Address := Vector Byte 7

/-- A callsign: "a finite sequence of 8-bit characters" (00_scope.md R19); an absent one is `none` of `Option`. -/
abbrev Callsign := List Byte

/-- The six characters of a decoded callsign, padding spaces included (40_address_codec.md R83, R84 item 1). -/
abbrev DecodedCallsign := Vector Byte 6

end Sys2Proof
end

