-- ==== Sys2Proof/Syntax.lean ====
section
/-! DEFINITION. The fourteen operations (30_encoding.md R70), one constructor per row of spec/opcode_table.json, each with the
command-word fields it reads (R68, R72). Data operands travel on ports beside the word (`Operands`, Machine/State.lean). -/

namespace Sys2Proof

/-- An operation with its command-word operands. `null` is the absent flag (R71), `ssid` the 8-bit SSID operand, `csLen` the
callsign length 0..15, `index` the relay index 0..15. -/
inductive Instr where
  /-- `op` 0x1, 40_address_codec.md R81. -/
  | encodeAddress (null : Bool) (ssid : Byte) (csLen : Nat)
  /-- `op` 0x2, 40_address_codec.md R83. -/
  | decodeAddress
  /-- `op` 0x3, 41_packet_model.md R91. -/
  | pktInit
  /-- `op` 0x4, 41_packet_model.md R94. -/
  | setSource (null : Bool) (ssid : Byte) (csLen : Nat)
  /-- `op` 0x5, 41_packet_model.md R96. -/
  | setDestination (null : Bool) (ssid : Byte) (csLen : Nat)
  /-- `op` 0x6, 41_packet_model.md R98. -/
  | addDigipeater (null : Bool) (ssid : Byte) (csLen : Nat)
  /-- `op` 0x7, 41_packet_model.md R100. -/
  | getSource
  /-- `op` 0x8, 41_packet_model.md R101. -/
  | getDestination
  /-- `op` 0x9, 41_packet_model.md R103. -/
  | getDigipeater (index : Nat)
  /-- `op` 0xA, 41_packet_model.md R105. -/
  | setPayload
  /-- `op` 0xB, 42_frame_builder.md R112. -/
  | buildFrame (null : Bool)
  /-- `op` 0xC, 43_packet_queue.md R122. -/
  | qInit
  /-- `op` 0xD, 43_packet_queue.md R124. -/
  | qPush
  /-- `op` 0xE, 43_packet_queue.md R127. -/
  | qPop
  deriving DecidableEq, Repr

end Sys2Proof
end

