-- ==== Sys2Proof/WellFormed.lean ====
section
/-! DEFINITION. Which operations a command word can carry: `cs_len` and `index` are 4-bit fields (30_encoding.md R68). The flag and
the SSID have their width in their type. -/

namespace Sys2Proof

/-- `cs_len` fits bits 23..20 and `index` fits bits 19..16 (R68). -/
def Instr.wellFormed : Instr → Bool
  | .encodeAddress _ _ csLen => decide (csLen < 16)
  | .decodeAddress => true
  | .pktInit => true
  | .setSource _ _ csLen => decide (csLen < 16)
  | .setDestination _ _ csLen => decide (csLen < 16)
  | .addDigipeater _ _ csLen => decide (csLen < 16)
  | .getSource => true
  | .getDestination => true
  | .getDigipeater index => decide (index < 16)
  | .setPayload => true
  | .buildFrame _ => true
  | .qInit => true
  | .qPush => true
  | .qPop => true

end Sys2Proof
end

