-- ==== Sys2Proof/Decode.lean ====
section
/-! DEFINITION. The command word (30_encoding.md R68): its fields, the decoder of R73 and R77, total on every word and rejecting by
name, and the encoder written from the same table. -/

namespace Sys2Proof

/-- Why a word is no command (R73); both are the condition IllegalCommand. -/
inductive DecodeError where
  /-- A reserved bit, 7..5 or 31..24, is set. -/
  | reservedBits
  /-- `op` is 0x0 or 0xF, which name no operation. -/
  | reservedOp
  deriving DecidableEq, Repr

/-- `op`, bits 3..0 (R68). -/
def CommandWord.opField (w : CommandWord) : BitVec 4 := w.extractLsb' 0 4

/-- `null`, bit 4 (R68). -/
def CommandWord.nullField (w : CommandWord) : Bool := w.getLsbD 4

/-- `ssid`, bits 15..8 (R68). -/
def CommandWord.ssidField (w : CommandWord) : Byte := w.extractLsb' 8 8

/-- `index`, bits 19..16 (R68), as an unsigned number (R69). -/
def CommandWord.indexField (w : CommandWord) : Nat := (w.extractLsb' 16 4).toNat

/-- `cs_len`, bits 23..20 (R68), as an unsigned number. -/
def CommandWord.csLenField (w : CommandWord) : Nat := (w.extractLsb' 20 4).toNat

/-- The reserved bits, 7..5 and 31..24, which must be 0 (R68, R77). -/
def reservedMask : CommandWord := 0xFF0000E0

/-- The mask of every row of the operation table: the `op` bits and the reserved bits (R77). -/
def rowMask : CommandWord := 0xFF0000EF

/-- The decoder of R77: IllegalCommand for a reserved bit or a reserved `op`, else the row whose `match` is the `op`. A field an
operation does not use is ignored (R68). -/
def decode (w : CommandWord) : Except DecodeError Instr :=
  if w &&& reservedMask ≠ 0 then .error .reservedBits
  else
    match w.opField.toNat with
    | 0x1 => .ok (.encodeAddress w.nullField w.ssidField w.csLenField)
    | 0x2 => .ok .decodeAddress
    | 0x3 => .ok .pktInit
    | 0x4 => .ok (.setSource w.nullField w.ssidField w.csLenField)
    | 0x5 => .ok (.setDestination w.nullField w.ssidField w.csLenField)
    | 0x6 => .ok (.addDigipeater w.nullField w.ssidField w.csLenField)
    | 0x7 => .ok .getSource
    | 0x8 => .ok .getDestination
    | 0x9 => .ok (.getDigipeater w.indexField)
    | 0xA => .ok .setPayload
    | 0xB => .ok (.buildFrame w.nullField)
    | 0xC => .ok .qInit
    | 0xD => .ok .qPush
    | 0xE => .ok .qPop
    | _ => .error .reservedOp

/-- `op` of each operation (R70). -/
def Instr.op : Instr → BitVec 4
  | .encodeAddress _ _ _ => 0x1
  | .decodeAddress => 0x2
  | .pktInit => 0x3
  | .setSource _ _ _ => 0x4
  | .setDestination _ _ _ => 0x5
  | .addDigipeater _ _ _ => 0x6
  | .getSource => 0x7
  | .getDestination => 0x8
  | .getDigipeater _ => 0x9
  | .setPayload => 0xA
  | .buildFrame _ => 0xB
  | .qInit => 0xC
  | .qPush => 0xD
  | .qPop => 0xE

/-- A command word from its fields, each at the place R68 gives it: `op` at bit 0, `null` at 4, `ssid` at 8, `index` at 16, `cs_len` at
20; the reserved bits are 0. -/
def packWord (op : BitVec 4) (null : Bool) (ssid : Byte) (index csLen : Nat) : CommandWord :=
  op.setWidth 32 ||| ((BitVec.ofBool null).setWidth 32 <<< 4) ||| (ssid.setWidth 32 <<< 8)
    ||| ((BitVec.ofNat 4 index).setWidth 32 <<< 16) ||| ((BitVec.ofNat 4 csLen).setWidth 32 <<< 20)

/-- The command word of an operation, its unused fields 0 (R68, R70, R72). -/
def encode : Instr → CommandWord
  | .encodeAddress null ssid csLen => packWord 0x1 null ssid 0 csLen
  | .decodeAddress => packWord 0x2 false 0 0 0
  | .pktInit => packWord 0x3 false 0 0 0
  | .setSource null ssid csLen => packWord 0x4 null ssid 0 csLen
  | .setDestination null ssid csLen => packWord 0x5 null ssid 0 csLen
  | .addDigipeater null ssid csLen => packWord 0x6 null ssid 0 csLen
  | .getSource => packWord 0x7 false 0 0 0
  | .getDestination => packWord 0x8 false 0 0 0
  | .getDigipeater index => packWord 0x9 false 0 index 0
  | .setPayload => packWord 0xA false 0 0 0
  | .buildFrame null => packWord 0xB null 0 0 0
  | .qInit => packWord 0xC false 0 0 0
  | .qPush => packWord 0xD false 0 0 0
  | .qPop => packWord 0xE false 0 0 0

/-- The command word whose low `nbits` bits are those of `w` and whose other bits are 0; it is presented whole, so it has no byte
order (20_memory.md R41, R45; log 11). -/
def commandWordOfBits (nbits w : Nat) : CommandWord := (BitVec.ofNat nbits w).setWidth 32

/-- The operation the decoder reads from a row's word, numbered as spec/opcode_table.json numbers its bits. -/
def decodeTableWord (nbits w : Nat) : Option Instr :=
  match decode (commandWordOfBits nbits w) with
  | .ok i => some i
  | .error _ => none

end Sys2Proof
end

