-- ==== Sys2Proof/Machine/Packet.lean ====
section
/-! DEFINITION. The Packet value (10_state.md R21), the type of `WP` and of every queue slot, with the payload buffer it holds. -/

namespace Sys2Proof.Machine

/-- A byte array of the block (20_memory.md R40), as (index, byte) cells in one canonical form (`Memory.wf`, Machine/Ops.lean):
indices strictly rising and no cell equal to what an unlisted index reads as, 0x00 (10_state.md R35). Log 7. -/
abbrev Memory := List Host.Cell

/-- A Packet value, field for field as 10_state.md R21 lists it. The two counts are held as numbers of their legal range
(R12; log 10); the spec fixes no in-memory order of the fields. -/
structure Packet where
  /-- `SRC[0..6]`, the source address field, stored form. -/
  src : Address
  /-- `DST[0..6]`, the destination address field, stored form. -/
  dst : Address
  /-- `DIGI[0..7]`, the relay address fields; slots `0..NDIGI-1` are the relay chain in insertion order. -/
  digi : Vector Address 8
  /-- `NDIGI`, 0..8, the current relay count. -/
  ndigi : Fin 9
  /-- `CTRL`, the control byte. -/
  ctrl : Byte
  /-- `PID`, the protocol-id byte. -/
  pid : Byte
  /-- `PAYLOAD[0..255]`, the payload buffer. -/
  payload : Memory
  /-- `PLEN`, 0..256: how many bytes of `PAYLOAD`, from index 0, are the payload. -/
  plen : Fin 257
  deriving DecidableEq, Repr, Inhabited

end Sys2Proof.Machine
end

