-- ==== Sys2Proof/Config.lean ====
section
/-! DEFINITION. What is fixed for the machine: the constants the source fixes (00_scope.md R7), the parameters a model takes as
arguments (R8, R9, R10) with the spec's defaults, and the free values: the external checksum (R11) and what a queue slot nothing
was pushed to holds (10_state.md R36). -/

namespace Sys2Proof.Config

/-- `CALL_LEN` (R7): characters of callsign in an address field. -/
@[simp] def callLen : Nat := 6

/-- `SSID_MASK` (R7). -/
@[simp] def ssidMask : Byte := 0x0F

/-- `SSID_BASE` (R7): constant OR-ed into byte 7 of an address field. -/
@[simp] def ssidBase : Byte := 0x60

/-- `PAD_CHAR` (R7): ASCII space, pads a short callsign. -/
@[simp] def padChar : Byte := 0x20

/-- `MAX_DIGI` (R7): most relay addresses in a packet. -/
@[simp] def maxDigi : Nat := 8

/-- `MAX_PAYLOAD` (R7): most payload bytes. -/
@[simp] def maxPayload : Nat := 256

/-- `CTRL_DEFAULT` (R7): control byte after initialization. -/
@[simp] def ctrlDefault : Byte := 0x30

/-- `PID_DEFAULT` (R7): protocol-id byte after initialization. -/
@[simp] def pidDefault : Byte := 0xF0

/-- `QCAP` (R7): queue slots. -/
@[simp] def qcap : Nat := 10

/-- `Q_EMPTY` (R7): value of both `FRONT` and `REAR` when the queue is empty. -/
@[simp] def qEmpty : Int := -1

/-- `ADDR_LEN` (R7): bytes of one address field. -/
@[simp] def addrLen : Nat := 7

/-- `FCS_LEN` (R7): bytes of checksum appended to a frame. -/
@[simp] def fcsLen : Nat := 2

/-- The encoded space, 0x40 (30_encoding.md R57), the "space-encoded form" of 41_packet_model.md R91. -/
@[simp] def encodedSpace : Byte := 0x40

/-- The three parameters that have a value (R8, R9, R10); `State.params` holds them and no step writes them (log 4). -/
structure Params where
  /-- `MAX_FRAME_LEN` (R8): the bound of the Frame Builder's output. -/
  maxFrameLen : Nat
  /-- `INIT_B7` (R9): byte 7 of every address after PKT_INIT. -/
  initB7 : Byte
  /-- `DIGI_INDEX_EQ_COUNT_FAILS` (R10): whether GET_DIGIPEATER with `index` equal to the relay count fails. -/
  digiIndexEqCountFails : Bool
  deriving DecidableEq, Repr

/-- The spec's defaults: 328 (R8), 0x40 (R9), true (R10). -/
def defaultParams : Params := { maxFrameLen := 328, initB7 := 0x40, digiIndexEqCountFails := true }

/-- FREE VALUE (R11; U1; log 5). `checksum`: a total function of the byte sequence to 16 bits, of which nothing else is assumed. -/
opaque checksum : List Byte → BitVec 16

/-- FREE VALUE (10_state.md R36; U7; log 6). What a read of a queue slot nothing was pushed to gives; no run from reset reads one. -/
opaque powerOnSlot : Fin 10 → Machine.Packet

end Sys2Proof.Config
end

