-- ==== Sys2Proof/Machine/State.lean ====
section
/-! DEFINITION. The state as plain data: `WP` and `Q` (10_state.md R20), and what the model adds so that a step is one function of
the state: the parameters, the operand ports, the commands still to come and the result ports. The reset state (R35). The
conditions and the status (30_encoding.md R74), and the reasons a step can stop. -/

namespace Sys2Proof.Machine

/-- `FRONT` or `REAR`: a slot number 0..9, or `none` for the sentinel -1 (44_laws_and_control.md R171; log 10). -/
abbrev QIndex := Option (Fin 10)

/-- A Queue value (10_state.md R30). -/
structure Queue where
  /-- `SLOT[0..9]`; `none` is the spec's "no value if never written" (R30, R36). -/
  slot : Vector (Option Packet) 10
  /-- `FRONT`, slot of the oldest resident packet. -/
  front : QIndex
  /-- `REAR`, slot of the newest resident packet. -/
  rear : QIndex
  deriving DecidableEq, Repr

/-- The operand ports beside the command word (30_encoding.md R72). -/
structure Operands where
  /-- `cs[0..5]`, the six callsign lanes. -/
  cs : Vector Byte 6
  /-- `addr_in[0..6]`. -/
  addrIn : Address
  /-- `pl_in`; its length is `pl_in_len` (41_packet_model.md R105; log 8). -/
  plIn : List Byte
  deriving DecidableEq, Repr

/-- One command as the host presents it: the command word and the operand ports (30_encoding.md R67). -/
structure Command where
  word : CommandWord
  operands : Operands
  deriving DecidableEq, Repr

/-- The conditions (30_encoding.md R74; 60_exceptions.md R136 to R143). -/
inductive Condition where
  /-- Code 1: a required input is absent (R136). -/
  | invalidArgument
  /-- Code 2: ADD_DIGIPEATER with eight relays present (R137). -/
  | relayChainFull
  /-- Code 3: GET_DIGIPEATER with an index that names no relay (R138). -/
  | indexOutOfRange
  /-- Code 4: Q_PUSH with ten packets resident (R139). -/
  | queueFull
  /-- Code 5: Q_POP with none resident (R140). -/
  | queueEmpty
  /-- Code 6: BUILD_FRAME over `MAX_FRAME_LEN` (R142). -/
  | frameTooLong
  /-- Code 7: a reserved `op` or a reserved bit (R143). -/
  | illegalCommand
  deriving DecidableEq, Repr

/-- The status an operation ends with (30_encoding.md R74). -/
inductive Status where
  /-- Code 0. -/
  | ok
  | raised (c : Condition)
  deriving DecidableEq, Repr

/-- The result ports (30_encoding.md R72) as the last operation left them. `none` is "unspecified": the operation gives the port no
value, or failed (60_exceptions.md R141; U6 allows exactly this; log 3). No operation reads any of them (10_state.md R33). -/
structure Results where
  /-- `status`. -/
  status : Option Status := none
  /-- `addr_out[0..6]`. -/
  addrOut : Option Address := none
  /-- `cs_out[0..5]`. -/
  csOut : Option DecodedCallsign := none
  /-- `ssid_out`, 4 bits. -/
  ssidOut : Option (BitVec 4) := none
  /-- `ext_out`, 1 bit. -/
  extOut : Option Bool := none
  /-- `count_out`, 4 bits. -/
  countOut : Option (BitVec 4) := none
  /-- `F[0..frame_len-1]`. -/
  frame : Option (List Byte) := none
  /-- `frame_len`, 9 bits. -/
  frameLen : Option (BitVec 9) := none
  deriving DecidableEq, Repr

/-- The state. `wp` and `q` are all the spec gives the machine (10_state.md R20); the other four fields are the model's own (R33). -/
structure State where
  /-- `WP`, the working packet register (R21). -/
  wp : Packet
  /-- `Q`, the packet queue (R30). -/
  q : Queue
  /-- The parameters (00_scope.md R8, R9, R10), which no step writes; log 4. -/
  params : Config.Params
  /-- The operand ports as last driven (30_encoding.md R72); log 2. -/
  operands : Operands
  /-- The commands the host has still to issue, oldest first (20_memory.md R51); log 1. -/
  pending : List Command
  /-- The result ports as the last operation left them; log 3. -/
  results : Results
  deriving DecidableEq, Repr

/-- Why the machine stops: never. "None are fatal" and nothing traps, hangs or halts (60_exceptions.md R135, R147, R148): no definition
raises a fault, so the type has no constructor. Safe: there is nothing a step could stop on. -/
inductive Fault where
  deriving DecidableEq, Repr

/-- Why an instruction has no meaning. Every instruction has one, so no arm of exec raises this. Safe. -/
inductive Refusal where
  /-- Raised only by an arm of exec whose instruction has no meaning yet (there is none). Safe. -/
  | notModelled (mnemonic : String)
  deriving DecidableEq, Repr

/-- What one instruction or one step answers. -/
abbrev Outcome := Host.Outcome State Fault Refusal

namespace State

/-- Write the working packet register. -/
def setWp (s : State) (p : Packet) : State := { s with wp := p }

/-- Write the queue. -/
def setQ (s : State) (q : Queue) : State := { s with q := q }

/-- Drive the result ports. -/
def setResults (s : State) (r : Results) : State := { s with results := r }

/-- Take a command from the host: drive its operand ports and leave `rest` to come. -/
def take (s : State) (o : Operands) (rest : List Command) : State := { s with operands := o, pending := rest }

end State

/-- An address at reset: six encoded spaces, then `INIT_B7` (10_state.md R35; 41_packet_model.md R91). -/
def resetAddress (b7 : Byte) : Address := #v[0x40, 0x40, 0x40, 0x40, 0x40, 0x40, b7]

/-- The packet of 10_state.md R35, for a given `INIT_B7`. -/
def resetPacket (b7 : Byte) : Packet :=
  { src := resetAddress b7, dst := resetAddress b7, digi := Vector.replicate 8 (resetAddress b7), ndigi := 0, ctrl := 0x30,
    pid := 0xF0, payload := [], plen := 0 }

/-- The operand ports before the first command: zeros and no payload bytes. DESIGN CHOICE, safe: no operation reads them before a
command drives them (log 2). -/
def idleOperands : Operands := { cs := Vector.replicate 6 0, addrIn := Vector.replicate 7 0, plIn := [] }

/-- The state right after reset (10_state.md R35; 70_reset_and_hazards.md R155), under the default parameters, before any command:
queue slots without a value, every output unspecified. -/
def State.reset : State :=
  { wp := resetPacket Config.defaultParams.initB7, q := { slot := Vector.replicate 10 none, front := none, rear := none },
    params := Config.defaultParams, operands := idleOperands, pending := [], results := {} }

end Sys2Proof.Machine
end

