-- ==== Sys2Proof/Machine/Ops.lean ====
section
/-! DEFINITION. The shared operations: the byte array of 20_memory.md R40 (`MemRead`, `MemWrite` of 00_scope.md R15), and the two
ways an operation ends (R16): OK with its outputs, or a raised condition (60_exceptions.md R141), which is all there is to taking
an exception on this block (R147); there is no return from one (R148). -/

namespace Sys2Proof.Machine

namespace Memory

/-- What an index no cell lists reads as: 0x00, the reset and PKT_INIT contents (10_state.md R35; 41_packet_model.md R91). -/
def unlisted : Byte := 0x00

/-- The canonical form: indices strictly rising, each below 256, no cell equal to what an unlisted index reads as. -/
abbrev wf (m : Memory) : Prop :=
  m.Pairwise (fun c d => c.1 < d.1) ∧ ∀ c ∈ m, c.1 < 256 ∧ c.2 ≠ unlisted

/-- `A[i]` (00_scope.md R15). -/
def read (m : Memory) (i : Nat) : Byte :=
  match m with
  | [] => unlisted
  | c :: rest => if c.1 = i then c.2 else read rest i

/-- `A[i] <- v` (R15), keeping the canonical form: writing what an unlisted index reads as removes the cell. -/
def write (m : Memory) (i : Nat) (v : Byte) : Memory :=
  match m with
  | [] => if v = unlisted then [] else [(i, v)]
  | c :: rest =>
    if i < c.1 then (if v = unlisted then c :: rest else (i, v) :: c :: rest)
    else if i = c.1 then (if v = unlisted then rest else (i, v) :: rest)
    else c :: write rest i v

/-- `MemRead(space, i, n)`: the bytes `space[i..i+n-1]` (R15). -/
def readBytes (m : Memory) (i n : Nat) : List Byte := (List.range n).map fun j => read m (i + j)

/-- `MemWrite(space, i, n, v)`: the bytes of `v`, whose length is `n`, to `space[i..i+n-1]` (R15). -/
def writeBytes (m : Memory) (i : Nat) (v : List Byte) : Memory :=
  match v with
  | [] => m
  | b :: rest => writeBytes (write m i b) (i + 1) rest

end Memory

namespace Condition

/-- The status number of a condition (30_encoding.md R74). -/
def code : Condition → BitVec 3
  | .invalidArgument => 1
  | .relayChainFull => 2
  | .indexOutOfRange => 3
  | .queueFull => 4
  | .queueEmpty => 5
  | .frameTooLong => 6
  | .illegalCommand => 7

end Condition

/-- The 3-bit `status` output (30_encoding.md R74). -/
def Status.code : Status → BitVec 3
  | .ok => 0
  | .raised c => c.code

namespace Results

/-- OK, from an operation that has no output but the status. -/
def done : Results := { status := some .ok }

/-- OK with `addr_out`. -/
def address (a : Address) : Results := { status := some .ok, addrOut := some a }

/-- OK with `cs_out`, `ssid_out` and `ext_out`. -/
def decoded (cs : DecodedCallsign) (ssid : BitVec 4) (ext : Bool) : Results :=
  { status := some .ok, csOut := some cs, ssidOut := some ssid, extOut := some ext }

/-- OK with `count_out`, 4 bits (30_encoding.md R75). -/
def count (n : Nat) : Results := { status := some .ok, countOut := some (BitVec.ofNat 4 n) }

/-- OK with the frame and `frame_len`, 9 bits (42_frame_builder.md R112). -/
def framed (f : List Byte) : Results := { status := some .ok, frame := some f, frameLen := some (BitVec.ofNat 9 f.length) }

/-- A condition: its status, and every other output unspecified (60_exceptions.md R141). -/
def failed (c : Condition) : Results := { status := some (.raised c) }

end Results

/-- `return OK(outputs)` (00_scope.md R16). -/
def complete (s : State) (r : Results) : Outcome := .next (s.setResults r)

/-- `raise <Condition>` (R16): the operation ends with the condition's status, writes no state and leaves every other output
unspecified (60_exceptions.md R141). Nothing is saved, no mode changes and control goes nowhere (R147). -/
def raise (s : State) (c : Condition) : Outcome := .next (s.setResults (.failed c))

end Sys2Proof.Machine
end

