-- ==== Sys2Proof/Machine/Flags.lean ====
section
/-! DEFINITION. The block's only flag: the chain-extension bit, bit 0 of byte 6 of an address (10_state.md R27), and the three ways it
is written (40_address_codec.md R87; 42_frame_builder.md R111; 44_laws_and_control.md R170). -/

namespace Sys2Proof.Machine

/-- `a[6] & 0x01`. -/
def extBit (a : Address) : Bool := a[6].getLsbD 0

/-- `a[6] <- a[6] | 0x01` (R87). -/
def setExt (a : Address) : Address := a.set 6 (a[6] ||| 0x01)

/-- `a[6] <- a[6] & 0xFE` (R87). -/
def clearExt (a : Address) : Address := a.set 6 (a[6] &&& 0xFE)

/-- `with_ext(a, b)`: `a[6] <- (a[6] & 0xFE) | b` (R111). -/
def withExt (a : Address) (b : Bool) : Address := a.set 6 ((a[6] &&& 0xFE) ||| (if b then 0x01 else 0x00))

end Sys2Proof.Machine
end

