-- ==== Sys2Proof/Machine/Operands.lean ====
section
/-! DEFINITION. Operand assembly (30_encoding.md R69, R71): what an operation takes from the command word and the operand ports. -/

namespace Sys2Proof.Machine

/-- The callsign operand: absent when `null = 1`, whatever `cs` and `cs_len` are (R71); else `cs[0..k-1]` with `k = min(cs_len, 6)`
(R69). -/
def callsignOperand (null : Bool) (csLen : Nat) (o : Operands) : Option Callsign :=
  if null then none else some (o.cs.toList.take (min csLen Config.callLen))

/-- `pl_in_len`, the length of `pl_in` (41_packet_model.md R105). -/
def payloadLength (o : Operands) : Nat := o.plIn.length

/-- The payload bytes used: the first `min(pl_in_len, 256)` (R69). -/
def payloadOperand (o : Operands) : List Byte := o.plIn.take (min (payloadLength o) Config.maxPayload)

/-- What the ports can carry: `pl_in_len` is 16 bits (00_scope.md R12; log 8). -/
def Operands.wellFormed (o : Operands) : Bool := decide (o.plIn.length < 2 ^ 16)

/-- The packet operand of BUILD_FRAME: absent when `null = 1` (R71), else `WP`. -/
def packetOperand (null : Bool) (s : State) : Option Packet := if null then none else some s.wp

end Sys2Proof.Machine
end

