-- ==== Sys2Proof/Machine/Codec.lean ====
section
/-! DEFINITION. The Address Codec (40_address_codec.md): its two pure functions and the operations ENCODE_ADDRESS and DECODE_ADDRESS. -/

namespace Sys2Proof.Machine

/-- Character byte of an address: `(c << 1) & 0xFE` on 8 bits (30_encoding.md R57). -/
def charByte (c : Byte) : Byte := (c <<< 1) &&& 0xFE

/-- SSID byte of an address: `0x60 | ((ssid & 0x0F) << 1)` (30_encoding.md R58). -/
def ssidByte (ssid : Byte) : Byte := Config.ssidBase ||| ((ssid &&& Config.ssidMask) <<< 1)

/-- Character `i` of a callsign, a space past its end (40_address_codec.md R81). -/
def padChar (cs : Callsign) (i : Nat) : Byte := cs[i]?.getD Config.padChar

/-- `encode_address(cs, ssid)`, defined for a callsign of any length: characters past the sixth are not looked at (R81). -/
def encodeAddress (cs : Callsign) (ssid : Byte) : Address :=
  #v[charByte (padChar cs 0), charByte (padChar cs 1), charByte (padChar cs 2), charByte (padChar cs 3), charByte (padChar cs 4),
    charByte (padChar cs 5), ssidByte ssid]

/-- The callsign half of `decode_address(a)`: `(a[i] >> 1) & 0x7F` for `i` in 0..5 (R83). -/
def decodeCallsign (a : Address) : DecodedCallsign :=
  #v[(a[0] >>> 1) &&& 0x7F, (a[1] >>> 1) &&& 0x7F, (a[2] >>> 1) &&& 0x7F, (a[3] >>> 1) &&& 0x7F, (a[4] >>> 1) &&& 0x7F,
    (a[5] >>> 1) &&& 0x7F]

/-- The SSID of `decode_address(a)`: `(a[6] >> 1) & 0x0F`, 4 bits (R83). -/
def decodeSsid (a : Address) : BitVec 4 := ((a[6] >>> 1) &&& 0x0F).setWidth 4

/-- The outputs of `decode_address(a)`; the third is `a[6] & 0x01` (R83). -/
def decodedResults (a : Address) : Results := .decoded (decodeCallsign a) (decodeSsid a) (extBit a)

/-- The pure function of ENCODE_ADDRESS with its one check: an absent callsign is InvalidArgument (R81). -/
def encodeOperand (cs : Option Callsign) (ssid : Byte) : Except Condition Address :=
  match cs with
  | none => .error .invalidArgument
  | some cs => .ok (encodeAddress cs ssid)

/-- ENCODE_ADDRESS (R81). -/
def execEncodeAddress (null : Bool) (ssid : Byte) (csLen : Nat) (s : State) : Outcome :=
  match encodeOperand (callsignOperand null csLen s.operands) ssid with
  | .error c => raise s c
  | .ok a => complete s (.address a)

/-- DECODE_ADDRESS (R83). -/
def execDecodeAddress (s : State) : Outcome := complete s (decodedResults s.operands.addrIn)

end Sys2Proof.Machine
end

