-- ==== Sys2Proof/Machine/PacketModel.lean ====
section
/-! DEFINITION. The Packet Model (41_packet_model.md): each operation as a pure function on a Packet value (R90), and its binding to
the working packet register `WP`. -/

namespace Sys2Proof.Machine

/-- An address after initialization: six encoded spaces, then `INIT_B7` (R91). -/
def initAddress (b7 : Byte) : Address :=
  #v[Config.encodedSpace, Config.encodedSpace, Config.encodedSpace, Config.encodedSpace, Config.encodedSpace, Config.encodedSpace, b7]

namespace Packet

/-- Packet `init()` (R91): every field, all eight relay slots and all 256 payload bytes, from any packet (R92). -/
def init (b7 : Byte) : Packet :=
  { src := initAddress b7, dst := initAddress b7, digi := Vector.replicate 8 (initAddress b7), ndigi := 0,
    ctrl := Config.ctrlDefault, pid := Config.pidDefault, payload := [], plen := 0 }

/-- `set_source(callsign, ssid)` (R94); an absent callsign is a silent no-op (R93). -/
def setSource (p : Packet) (cs : Option Callsign) (ssid : Byte) : Packet :=
  match cs with
  | none => p
  | some cs => { p with src := encodeAddress cs ssid }

/-- `set_destination(callsign, ssid)` (R96); an absent callsign is a silent no-op (R93). -/
def setDestination (p : Packet) (cs : Option Callsign) (ssid : Byte) : Packet :=
  match cs with
  | none => p
  | some cs => { p with dst := encodeAddress cs ssid }

/-- The relay slots with the chain-extension bit of slot `n-1`, the prior last relay, cleared; all of them when `n` is 0 (R98). -/
def clearPriorExt (digi : Vector Address 8) (n : Nat) : Vector Address 8 :=
  if h : 1 ≤ n ∧ n ≤ 8 then digi.set (n - 1) (clearExt digi[n - 1]) else digi

/-- `add_digipeater(callsign, ssid)` (R98), with the new relay count. The absent callsign is checked before the full chain (R99
item 1, 60_exceptions.md R145). -/
def addDigipeater (p : Packet) (cs : Option Callsign) (ssid : Byte) : Except Condition (Packet × Nat) :=
  match cs with
  | none => .error .invalidArgument
  | some cs =>
    if h : p.ndigi.val = Config.maxDigi then .error .relayChainFull
    else
      have hn : p.ndigi.val < 8 := by have := p.ndigi.isLt; simp at h; omega
      .ok ({ p with
              digi := (clearPriorExt p.digi p.ndigi).set p.ndigi (setExt (encodeAddress cs ssid))
              ndigi := ⟨p.ndigi + 1, by omega⟩ },
            p.ndigi + 1)

/-- `get_digipeater(index)` (R103), and, with `DIGI_INDEX_EQ_COUNT_FAILS` false, the slot at `index = NDIGI < 8` (R104). -/
def getDigipeater (p : Packet) (eqCountFails : Bool) (index : Nat) : Except Condition Address :=
  if h : index < 8 ∧ (index < p.ndigi.val ∨ (index = p.ndigi.val ∧ eqCountFails = false)) then .ok p.digi[index]
  else .error .indexOutOfRange

/-- `set_payload(bytes)` (R105): the first `min(|bytes|, 256)` bytes are copied to index 0 on, bytes past them keep their values, and
the copied length is recorded. -/
def setPayload (p : Packet) (bytes : List Byte) : Packet :=
  let n := min bytes.length Config.maxPayload
  { p with payload := Memory.writeBytes p.payload 0 (bytes.take n), plen := Fin.ofNat 257 n }

end Packet

/-- PKT_INIT (R91). -/
def execPktInit (s : State) : Outcome := complete (s.setWp (Packet.init s.params.initB7)) .done

/-- SET_SOURCE (R94). -/
def execSetSource (null : Bool) (ssid : Byte) (csLen : Nat) (s : State) : Outcome :=
  complete (s.setWp (s.wp.setSource (callsignOperand null csLen s.operands) ssid)) .done

/-- SET_DESTINATION (R96). -/
def execSetDestination (null : Bool) (ssid : Byte) (csLen : Nat) (s : State) : Outcome :=
  complete (s.setWp (s.wp.setDestination (callsignOperand null csLen s.operands) ssid)) .done

/-- ADD_DIGIPEATER (R98). -/
def execAddDigipeater (null : Bool) (ssid : Byte) (csLen : Nat) (s : State) : Outcome :=
  match s.wp.addDigipeater (callsignOperand null csLen s.operands) ssid with
  | .error c => raise s c
  | .ok (p, n) => complete (s.setWp p) (.count n)

/-- GET_SOURCE (R100). -/
def execGetSource (s : State) : Outcome := complete s (decodedResults s.wp.src)

/-- GET_DESTINATION (R101). -/
def execGetDestination (s : State) : Outcome := complete s (decodedResults s.wp.dst)

/-- GET_DIGIPEATER (R103). -/
def execGetDigipeater (index : Nat) (s : State) : Outcome :=
  match s.wp.getDigipeater s.params.digiIndexEqCountFails index with
  | .error c => raise s c
  | .ok a => complete s (decodedResults a)

/-- SET_PAYLOAD (R105). -/
def execSetPayload (s : State) : Outcome := complete (s.setWp (s.wp.setPayload (payloadOperand s.operands))) .done

end Sys2Proof.Machine
end

