-- ==== Sys2Proof/Machine/FrameBuilder.lean ====
section
/-! DEFINITION. The Frame Builder (42_frame_builder.md): the pure function `build_frame` and the operation BUILD_FRAME. -/

namespace Sys2Proof.Machine

namespace Packet

/-- The relay blocks as emitted: slots `0..NDIGI-1` in insertion order, the chain-extension bit forced to 1 on the last and 0 on the
others (R112 step 3, R117). -/
def relayBlocks (p : Packet) : List Address :=
  List.ofFn fun i : Fin p.ndigi.val =>
    withExt (p.digi[i.val]'(by have := p.ndigi.isLt; have := i.isLt; omega)) (decide (i.val = p.ndigi.val - 1))

/-- Steps 1 to 4 of R112: destination as stored, source with its bit 1 exactly when there are no relays, relays, payload. -/
def frameBody (p : Packet) : List Byte :=
  p.dst.toList ++ (withExt p.src (decide (p.ndigi.val = 0))).toList ++ p.relayBlocks.flatMap (·.toList)
    ++ Memory.readBytes p.payload 0 p.plen

/-- `L = 7 + 7 + 7*n + p + 2` (R112, R115). -/
def frameLength (p : Packet) : Nat :=
  Config.addrLen + Config.addrLen + Config.addrLen * p.ndigi.val + p.plen.val + Config.fcsLen

/-- Step 5: the checksum of the whole body, low byte first (R112, R114; 20_memory.md R43). -/
def withChecksum (body : List Byte) : List Byte :=
  body ++ [(Config.checksum body).extractLsb' 0 8, (Config.checksum body).extractLsb' 8 8]

end Packet

/-- `build_frame(packet)` (R112): the absent packet is checked before the length (R113, 60_exceptions.md R145). -/
def buildFrame (maxLen : Nat) (p : Option Packet) : Except Condition (List Byte) :=
  match p with
  | none => .error .invalidArgument
  | some p => if p.frameLength > maxLen then .error .frameTooLong else .ok (Packet.withChecksum p.frameBody)

/-- BUILD_FRAME (R112). -/
def execBuildFrame (null : Bool) (s : State) : Outcome :=
  match buildFrame s.params.maxFrameLen (packetOperand null s) with
  | .error c => raise s c
  | .ok f => complete s (.framed f)

end Sys2Proof.Machine
end

