-- ==== Sys2Proof/Machine/PacketQueue.lean ====
section
/-! DEFINITION. The Packet Queue (43_packet_queue.md): its helpers on the integer values of the indices, the three pure functions, and
Q_INIT, Q_PUSH and Q_POP bound to `Q` and `WP` (R120). -/

namespace Sys2Proof.Machine

/-- The integer an index stands for: -1 or 0..9 (10_state.md R30; 44_laws_and_control.md R171). -/
def indexValue : QIndex → Int
  | none => Config.qEmpty
  | some i => i.val

/-- `(x + 1) mod 10` for an index `x`, the mathematical remainder; from -1 it is 0 (44_laws_and_control.md R170). -/
def nextSlot (x : QIndex) : Fin 10 := Fin.ofNat 10 ((indexValue x + 1) % (Config.qcap : Int)).toNat

namespace Queue

/-- `is_empty(Q)` (R121). -/
def isEmpty (q : Queue) : Bool := decide (indexValue q.front = -1)

/-- `is_full(Q)`; the addition is on integers, not modulo 10 (R121). -/
def isFull (q : Queue) : Bool :=
  decide (indexValue q.front = indexValue q.rear + 1 ∨ (indexValue q.front = 0 ∧ indexValue q.rear = 9))

/-- `count(Q)` (R121). -/
def count (q : Queue) : Nat :=
  if q.isEmpty then 0 else ((indexValue q.rear - indexValue q.front) % (Config.qcap : Int)).toNat + 1

/-- Queue `init()` (R122): the indices only; the slots are not cleared. -/
def init (q : Queue) : Queue := { q with front := none, rear := none }

/-- The queue with a packet appended: it goes to the slot after `REAR`, which becomes the rear; an empty queue gets front 0 (R124). -/
def pushed (q : Queue) (p : Packet) : Queue :=
  { slot := q.slot.set (nextSlot q.rear) (some p), front := if q.isEmpty then some 0 else q.front, rear := some (nextSlot q.rear) }

/-- `push(packet)` (R124). -/
def push (q : Queue) (p : Packet) : Except Condition Queue := if q.isFull then .error .queueFull else .ok (q.pushed p)

/-- What a read of slot `i` gives: its packet, or, for a slot nothing was pushed to, a free value (10_state.md R36; log 6). -/
def readSlot (q : Queue) (i : Fin 10) : Packet := q.slot[i].getD (Config.powerOnSlot i)

/-- The queue without its front packet: the slot is not erased, and removing the last resident packet resets both indices to -1
(R127). -/
def popped (q : Queue) : Queue :=
  if q.front = q.rear then { q with front := none, rear := none } else { q with front := some (nextSlot q.front) }

/-- `pop()` (R127): the packet at `FRONT` is copied out. -/
def pop (q : Queue) : Except Condition (Packet × Queue) :=
  match q.front with
  | none => .error .queueEmpty
  | some f => .ok (q.readSlot f, q.popped)

end Queue

/-- Q_INIT (R122). -/
def execQInit (s : State) : Outcome := complete (s.setQ s.q.init) .done

/-- Q_PUSH (R124): a full copy of `WP`, which is unchanged. -/
def execQPush (s : State) : Outcome :=
  match s.q.push s.wp with
  | .error c => raise s c
  | .ok q => complete (s.setQ q) .done

/-- Q_POP (R127): replaces the whole of `WP` (R128). -/
def execQPop (s : State) : Outcome :=
  match s.q.pop with
  | .error c => raise s c
  | .ok (p, q) => complete ((s.setWp p).setQ q) .done

end Sys2Proof.Machine
end

