-- ==== Sys2Proof/Machine/Dispatch.lean ====
section
/-! DEFINITION. One arm per operation (30_encoding.md R70). -/

namespace Sys2Proof.Machine

def exec (i : Instr) (s : State) : Host.Outcome State Fault Refusal :=
  match i with
  | .encodeAddress null ssid csLen => Sys2Proof.Machine.execEncodeAddress null ssid csLen s
  | .decodeAddress => Sys2Proof.Machine.execDecodeAddress s
  | .pktInit => Sys2Proof.Machine.execPktInit s
  | .setSource null ssid csLen => Sys2Proof.Machine.execSetSource null ssid csLen s
  | .setDestination null ssid csLen => Sys2Proof.Machine.execSetDestination null ssid csLen s
  | .addDigipeater null ssid csLen => Sys2Proof.Machine.execAddDigipeater null ssid csLen s
  | .getSource => Sys2Proof.Machine.execGetSource s
  | .getDestination => Sys2Proof.Machine.execGetDestination s
  | .getDigipeater index => Sys2Proof.Machine.execGetDigipeater index s
  | .setPayload => Sys2Proof.Machine.execSetPayload s
  | .buildFrame null => Sys2Proof.Machine.execBuildFrame null s
  | .qInit => Sys2Proof.Machine.execQInit s
  | .qPush => Sys2Proof.Machine.execQPush s
  | .qPop => Sys2Proof.Machine.execQPop s

end Sys2Proof.Machine
end

