-- ==== Sys2Proof/Machine/Issue.lean ====
section
/-! DEFINITION. One command on the command port (30_encoding.md R67): decoded, then run, or IllegalCommand (R73). -/

namespace Sys2Proof.Machine

/-- Run a command whose operand ports are driven: a word that is no command raises IllegalCommand before any operation is selected
(60_exceptions.md R145, R153). -/
def issue (w : CommandWord) (s : State) : Outcome :=
  match decode w with
  | .ok i => exec i s
  | .error _ => raise s .illegalCommand

/-- The oldest pending command and those after it; none pending means the block waits (70_reset_and_hazards.md R156; log 9). -/
def nextCommand (s : State) : Option (Command × List Command) :=
  match s.pending with
  | [] => none
  | c :: rest => some (c, rest)

/-- The pending commands with the word of the oldest replaced; where none is pending, a command with idle operand ports (log 11). -/
def placeWord (w : CommandWord) (pending : List Command) : List Command :=
  match pending with
  | [] => [{ word := w, operands := idleOperands }]
  | c :: rest => { c with word := w } :: rest

end Sys2Proof.Machine
end

