-- ==== Sys2Proof/Machine/Step.lean ====
section
/-! DEFINITION. One step: one command, run to completion (20_memory.md R50, R51). -/

namespace Sys2Proof.Machine

/-- Take the oldest pending command and run it; with none pending the block waits and nothing changes (70_reset_and_hazards.md R156;
log 9). -/
def step (s : State) : Host.Outcome State Fault Refusal :=
  match nextCommand s with
  | none => .next s
  | some (c, rest) => issue c.word (s.take c.operands rest)

/-- The state with the instruction of these bits as the command the next step takes; its operand ports are those of the command
already pending there, or idle (log 11). -/
def State.withFetchWord (s : State) (nbits w : Nat) : State :=
  { s with pending := placeWord (commandWordOfBits nbits w) s.pending }

end Sys2Proof.Machine
end

