-- ==== Sys2Proof/Machine/Assembler.lean ====
section
/-! DEFINITION. How a host spells a command (30_encoding.md R76) and what it presents for it: the command word (R68) and the operand
ports (R72). -/

namespace Sys2Proof.Machine

/-- One line of R76: the mnemonic with its operands in the order of the source's signature. A callsign is a byte sequence of any length
or absent (`NULL`); an address is seven bytes; a payload is a byte sequence. -/
inductive Line where
  | encodeAddress (cs : Option Callsign) (ssid : Byte)
  | decodeAddress (a : Address)
  | pktInit
  | setSource (cs : Option Callsign) (ssid : Byte)
  | setDestination (cs : Option Callsign) (ssid : Byte)
  | addDigipeater (cs : Option Callsign) (ssid : Byte)
  | getSource
  | getDestination
  | getDigipeater (index : BitVec 4)
  | setPayload (bytes : List Byte)
  | buildFrame (absent : Bool)
  | qInit
  | qPush
  | qPop
  deriving DecidableEq, Repr

/-- `cs_len` for a callsign: its length, 15 standing for any longer one (R68); 0 for an absent one, where it is ignored (R71). -/
def csLenOf (cs : Option Callsign) : Nat := min (cs.getD []).length 15

/-- The six lanes `cs[0..5]`. A lane past the callsign's end is never read (R69); it is driven 0 here (log 14). -/
def csLanesOf (cs : Option Callsign) : Vector Byte 6 :=
  let l := cs.getD []
  #v[l[0]?.getD 0, l[1]?.getD 0, l[2]?.getD 0, l[3]?.getD 0, l[4]?.getD 0, l[5]?.getD 0]

/-- The operation of a line, with the fields of its command word. -/
def Line.instr : Line → Instr
  | .encodeAddress cs ssid => .encodeAddress cs.isNone ssid (csLenOf cs)
  | .decodeAddress _ => .decodeAddress
  | .pktInit => .pktInit
  | .setSource cs ssid => .setSource cs.isNone ssid (csLenOf cs)
  | .setDestination cs ssid => .setDestination cs.isNone ssid (csLenOf cs)
  | .addDigipeater cs ssid => .addDigipeater cs.isNone ssid (csLenOf cs)
  | .getSource => .getSource
  | .getDestination => .getDestination
  | .getDigipeater index => .getDigipeater index.toNat
  | .setPayload _ => .setPayload
  | .buildFrame absent => .buildFrame absent
  | .qInit => .qInit
  | .qPush => .qPush
  | .qPop => .qPop

/-- The operand ports of a line; the ports its operation does not use are left idle. -/
def Line.operands : Line → Operands
  | .encodeAddress cs _ => { idleOperands with cs := csLanesOf cs }
  | .decodeAddress a => { idleOperands with addrIn := a }
  | .setSource cs _ => { idleOperands with cs := csLanesOf cs }
  | .setDestination cs _ => { idleOperands with cs := csLanesOf cs }
  | .addDigipeater cs _ => { idleOperands with cs := csLanesOf cs }
  | .setPayload bytes => { idleOperands with plIn := bytes }
  | .pktInit => idleOperands
  | .getSource => idleOperands
  | .getDestination => idleOperands
  | .getDigipeater _ => idleOperands
  | .buildFrame _ => idleOperands
  | .qInit => idleOperands
  | .qPush => idleOperands
  | .qPop => idleOperands

/-- What the host presents for a line (R67). -/
def Line.assemble (l : Line) : Command := { word := encode l.instr, operands := l.operands }

end Sys2Proof.Machine
end

