-- ==== Sys2Proof/Machine/Diagnostic.lean ====
section
/-! DEFINITION. The observation access of 60_exceptions.md R152: reads a host may make between operations. They are no operations,
have no opcode and change nothing, so each is a function of the state; there is none for `Q.SLOT`. -/

namespace Sys2Proof.Machine.Diagnostic

/-- `WP.CTRL`. -/
def ctrl (s : State) : Byte := s.wp.ctrl

/-- `WP.PID`. -/
def pid (s : State) : Byte := s.wp.pid

/-- `WP.PLEN`, 9 bits. -/
def plen (s : State) : BitVec 9 := BitVec.ofNat 9 s.wp.plen

/-- `WP.NDIGI`, 4 bits. -/
def ndigi (s : State) : BitVec 4 := BitVec.ofNat 4 s.wp.ndigi

/-- `WP.PAYLOAD[i]`, for `i` in 0..255. -/
def payload (s : State) (i : Fin 256) : Byte := s.wp.payload.read i

/-- `Q.FRONT`, the value -1 or 0..9. -/
def front (s : State) : Int := indexValue s.q.front

/-- `Q.REAR`, the value -1 or 0..9. -/
def rear (s : State) : Int := indexValue s.q.rear

/-- An index in 5 bits two's complement: -1 is 0b11111 (30_encoding.md R66). -/
def indexPattern (x : QIndex) : BitVec 5 := BitVec.ofInt 5 (indexValue x)

end Sys2Proof.Machine.Diagnostic
end

