-- ==== Sys2Proof/Safety.lean ====
section
/-! DEFINITION. What holds in every state a run reaches: the packet invariants (10_state.md R26) and the queue invariants (R31, R36);
and the list view of the queue (R32). The bounds of `NDIGI`, `PLEN`, `FRONT` and `REAR` are in their types (log 10). -/

namespace Sys2Proof.Machine

/-- The packet invariants (R26 items 3, 4, 5), and the canonical form of the payload buffer. -/
structure Packet.Inv (p : Packet) : Prop where
  /-- Item 3: the stored source never carries the chain-extension bit. -/
  srcExt : extBit p.src = false
  /-- Item 3: nor the stored destination. -/
  dstExt : extBit p.dst = false
  /-- Item 4: among the relays of the chain exactly the last carries it. -/
  chain : ∀ i : Fin 8, i.val < p.ndigi.val → extBit p.digi[i] = decide (i.val + 1 = p.ndigi.val)
  /-- Item 5. -/
  ctrl : p.ctrl = 0x30
  /-- Item 5. -/
  pid : p.pid = 0xF0
  /-- The payload buffer is canonical (log 7). -/
  payload : Memory.wf p.payload

/-- The slots from `FRONT` to `REAR`, oldest first: `SLOT[FRONT], SLOT[(FRONT+1) mod 10], ..., SLOT[REAR]` (R31). -/
def Queue.contents (q : Queue) : List (Option Packet) :=
  match q.front with
  | none => []
  | some f => (List.range q.count).map fun k => q.slot[(f.val + k) % 10]'(Nat.mod_lt _ (by decide))

/-- The queue invariants: both indices are -1 or neither is (R31); every slot that holds a packet holds one that meets the packet
invariants (R26); every resident slot holds a packet (R36). -/
structure Queue.Inv (q : Queue) : Prop where
  sentinel : q.front = none ↔ q.rear = none
  slots : ∀ (i : Fin 10) (p : Packet), q.slot[i] = some p → p.Inv
  resident : ∀ o ∈ q.contents, o ≠ none

/-- The invariant of the block. `INIT_B7` is one of the two readings of 00_scope.md R9. -/
structure State.Inv (s : State) : Prop where
  wp : s.wp.Inv
  q : s.q.Inv
  initB7 : s.params.initB7 = 0x40 ∨ s.params.initB7 = 0x60

/-- The status of the last operation is OK. -/
def State.succeeded (s : State) : Prop := s.results.status = some .ok

/-- What is architectural of a state: `WP` and `Q` (10_state.md R20). -/
def State.block (s : State) : Packet × Queue := (s.wp, s.q)

/-- The matrix of 60_exceptions.md R153 with the priority of R145: operation `i` in state `s` raises condition `c`. It is written for
the default `DIGI_INDEX_EQ_COUNT_FAILS`, as R153 is. -/
def Raises (i : Instr) (s : State) (c : Condition) : Prop :=
  match i with
  | .encodeAddress null _ _ => c = .invalidArgument ∧ null = true
  | .decodeAddress => False
  | .pktInit => False
  | .setSource _ _ _ => False
  | .setDestination _ _ _ => False
  | .addDigipeater null _ _ =>
    (c = .invalidArgument ∧ null = true) ∨ (c = .relayChainFull ∧ null = false ∧ s.wp.ndigi.val = 8)
  | .getSource => False
  | .getDestination => False
  | .getDigipeater index => c = .indexOutOfRange ∧ s.wp.ndigi.val ≤ index
  | .setPayload => False
  | .buildFrame null =>
    (c = .invalidArgument ∧ null = true) ∨
      (c = .frameTooLong ∧ null = false ∧ s.params.maxFrameLen < 16 + 7 * s.wp.ndigi.val + s.wp.plen.val)
  | .qInit => False
  | .qPush => c = .queueFull ∧ s.q.count = 10
  | .qPop => c = .queueEmpty ∧ s.q.front = none

/-- The operations that read only (20_memory.md R48). -/
def readsOnly : Instr → Bool
  | .encodeAddress _ _ _ => true
  | .decodeAddress => true
  | .pktInit => false
  | .setSource _ _ _ => false
  | .setDestination _ _ _ => false
  | .addDigipeater _ _ _ => false
  | .getSource => true
  | .getDestination => true
  | .getDigipeater _ => true
  | .setPayload => false
  | .buildFrame _ => true
  | .qInit => false
  | .qPush => false
  | .qPop => false

/-- The next command is operation `i`. -/
def NextIs (i : Instr) (s : State) : Prop := ∃ c rest, s.pending = c :: rest ∧ decode c.word = .ok i

/-- The step from `s` to `t` is a Q_POP that succeeded: the next command of `s` is Q_POP and the status after it is OK. -/
def poppedBy (s t : State) : Bool :=
  match s.pending with
  | [] => false
  | c :: _ =>
    match decode c.word with
    | .ok i => decide (i = .qPop) && decide (t.results.status = some .ok)
    | .error _ => false

/-- `n` steps from `s`. -/
def run (n : Nat) (s : State) : Outcome :=
  match n with
  | 0 => .next s
  | n + 1 =>
    match step s with
    | .next t => run n t
    | .fault f => .fault f
    | .refused r => .refused r

/-- How many of the next `n` steps are a Q_POP that succeeds. -/
def popsDuring (n : Nat) (s : State) : Nat :=
  match n with
  | 0 => 0
  | n + 1 =>
    match step s with
    | .next t => (if poppedBy s t then 1 else 0) + popsDuring n t
    | .fault _ => 0
    | .refused _ => 0

/-- Two packets that differ at most in stale data: payload bytes at `PLEN` and above and relay slots at `NDIGI` and above (10_state.md
R34 (a), (b)). -/
structure Packet.SameButStale (p p' : Packet) : Prop where
  src : p.src = p'.src
  dst : p.dst = p'.dst
  ctrl : p.ctrl = p'.ctrl
  pid : p.pid = p'.pid
  ndigi : p.ndigi = p'.ndigi
  plen : p.plen = p'.plen
  chain : ∀ i : Fin 8, i.val < p.ndigi.val → p.digi[i] = p'.digi[i]
  payload : ∀ j, j < p.plen.val → p.payload.read j = p'.payload.read j

/-- Two states that differ at most in stale data: that of `WP` and of the resident packets, and the slots that are not resident (R34
(a), (b), (c)). -/
structure State.SameButStale (s s' : State) : Prop where
  wp : s.wp.SameButStale s'.wp
  front : s.q.front = s'.q.front
  rear : s.q.rear = s'.q.rear
  contents : List.Forall₂ (Option.Rel Packet.SameButStale) s.q.contents s'.q.contents
  params : s.params = s'.params
  operands : s.operands = s'.operands
  pending : s.pending = s'.pending

end Sys2Proof.Machine
end

