-- ==== Sys2Proof/Certificates/Slice0/Obligations.lean ====
section
/-! DEFINITION. The statements for the provers, from the spec's numbered rules. A next state is written out, so that each says what the
operation changes and that it changes nothing else. -/

open Sys2Proof Sys2Proof.Machine

namespace Sys2Proof.Machine

/-- The row whose `match` is `m` (30_encoding.md R77): every word with that `op` and no reserved bit set decodes to `f` of the word. -/
def RowDecodes (m : CommandWord) (f : CommandWord → Instr) : Prop := ∀ w : CommandWord, w &&& 0xFF0000EF = m → decode w = .ok (f w)

/-- Character `i` of the callsign operand as a command gives it: a space at `min(cs_len, 6)` and above (30_encoding.md R69). -/
def operandChar (s : State) (csLen : Nat) (i : Fin 6) : Byte := if i.val < min csLen 6 then s.operands.cs[i] else 0x20

/-- `a` is the address field of 40_address_codec.md R81 for the callsign operand and `ssid`. -/
def EncodesOperand (s : State) (csLen : Nat) (ssid : Byte) (a : Address) : Prop :=
  (∀ i : Fin 6, a[i.val] = (operandChar s csLen i <<< 1) &&& (0xFE : Byte)) ∧ a[6] = (0x60 : Byte) ||| ((ssid &&& (0x0F : Byte)) <<< 1)

/-- `r` is OK with the outputs of `decode_address(a)` (40_address_codec.md R83). -/
def DecodesTo (r : Results) (a : Address) : Prop :=
  ∃ (cs : DecodedCallsign) (ssid : BitVec 4) (ext : Bool),
    r = { status := some .ok, csOut := some cs, ssidOut := some ssid, extOut := some ext } ∧
      (∀ i : Fin 6, cs[i] = (a[i.val] >>> 1) &&& (0x7F : Byte)) ∧ ssid = ((a[6] >>> 1) &&& (0x0F : Byte)).setWidth 4 ∧ ext = a[6].getLsbD 0

/-- `OK` with no output but the status. -/
def okResults : Results := { status := some .ok }

/-- The status of a condition and no other output (60_exceptions.md R141). -/
def failedResults (c : Condition) : Results := { status := some (.raised c) }

end Sys2Proof.Machine

/-! ## The command word -/

/-- 30_encoding.md section 4: the decoder undoes the encoder on every operation a command word can carry, every operand at every value. -/
def Obligations.DecodeOfEncodeIsIdentity : Prop := ∀ i : Instr, i.wellFormed = true → decode (encode i) = .ok i

/-- 30_encoding.md section 4 (R73) and section 5 (R77): a word is a command exactly when no reserved bit is set and its `op` is neither 0x0 nor 0xF,
and then the operation's `op` (R70) is the word's. -/
def Obligations.DecoderAcceptsExactlyTheTable : Prop :=
  ∀ w : CommandWord,
    ((w &&& 0xFF0000E0 ≠ 0 ∨ w &&& 0xF = 0 ∨ w &&& 0xF = 0xF) → ∃ e, decode w = .error e) ∧
    ((w &&& 0xFF0000E0 = 0 ∧ w &&& 0xF ≠ 0 ∧ w &&& 0xF ≠ 0xF) → ∃ i, decode w = .ok i ∧ w &&& 0xFF0000EF = i.op.setWidth 32)

/-- 30_encoding.md R68, last sentence: two words that agree on `op`, the reserved bits and the fields the operation uses decode to the
same operation. The used fields are those of the source's operation table: `null`, `ssid`, `cs_len` for ENCODE_ADDRESS, SET_SOURCE,
SET_DESTINATION and ADD_DIGIPEATER; `index` for GET_DIGIPEATER; `null` for BUILD_FRAME; none for the others. -/
def Obligations.UnusedFieldsAreIgnored : Prop :=
  ∀ w w' : CommandWord, w &&& 0xFF0000EF = w' &&& 0xFF0000EF →
    ((w &&& 0xF = 0x1 ∨ w &&& 0xF = 0x4 ∨ w &&& 0xF = 0x5 ∨ w &&& 0xF = 0x6) → w &&& 0x00F0FF10 = w' &&& 0x00F0FF10) →
    (w &&& 0xF = 0x9 → w &&& 0x000F0000 = w' &&& 0x000F0000) →
    (w &&& 0xF = 0xB → w &&& 0x00000010 = w' &&& 0x00000010) →
    decode w = decode w'

/-- Words of the spec's vectors (30_encoding.md R76; 95_test_vectors.md V-AC, V-PM, V-FB, V-Q, V-X) decode to the operations they stand
for. -/
def Obligations.SpecWordsDecode : Prop :=
  decode 0x00500106 = .ok (.addDigipeater false 1 5) ∧ decode 0x00801F01 = .ok (.encodeAddress false 31 8) ∧
    decode 0x00000514 = .ok (.setSource true 5 0) ∧ decode 0x000F0009 = .ok (.getDigipeater 15) ∧
    decode 0x0000001B = .ok (.buildFrame true) ∧ decode 0x00000013 = .ok .pktInit ∧ decode 0x00FFFF0C = .ok .qInit ∧
    decode 0x01000003 = .error .reservedBits ∧ decode 0x0000000F = .error .reservedOp

/-! ## A step -/

/-- 20_memory.md section 6 (R50, R51): a step takes the oldest pending command, drives its operand ports and runs the operation its word
decodes to. That commands are a list in the state is the model's choice (log 1). -/
def Obligations.StepRunsTheDecodedCommand : Prop :=
  ∀ (s : State) (c : Command) (rest : List Command) (i : Instr), s.pending = c :: rest → decode c.word = .ok i →
    step s = exec i { s with operands := c.operands, pending := rest }

/-- 30_encoding.md R73: a command word with `op` 0x0 or 0xF, or with any of bits 7..5 or 31..24 set, raises IllegalCommand: status 7, no
state change, no other output. That the command is taken from the list and its ports are driven is the model's (logs 1, 2, 15). -/
def Obligations.IllegalWordsRaiseIllegalCommand : Prop :=
  ∀ (s : State) (c : Command) (rest : List Command), s.pending = c :: rest →
    (c.word &&& 0xFF0000E0 ≠ 0 ∨ c.word &&& 0xF = 0 ∨ c.word &&& 0xF = 0xF) →
    step s = .next { s with operands := c.operands, pending := rest, results := failedResults .illegalCommand } ∧
      (Status.raised .illegalCommand).code = 7

/-- 10_state.md section 4 (R33): no step depends on what the result ports or the operand ports held before its command. -/
def Obligations.EarlierResultsAreUnreadable : Prop :=
  ∀ (s : State) (r : Results) (o : Operands), s.pending ≠ [] → step { s with results := r, operands := o } = step s

/-- 60_exceptions.md R148: no condition and no sequence of conditions can wedge, halt or reset the block: from every state any number of
steps answers a next state. A repeated command raises the same condition again. -/
def Obligations.NothingStopsTheBlock : Prop :=
  (∀ (n : Nat) (s : State), ∃ t : State, run n s = .next t) ∧
    ∀ (i : Instr) (s t : State), exec i s = .next t → ¬ t.succeeded → exec i t = .next t

/-- 30_encoding.md sections 4 and 5 (R68, R69, R72, R76): what a host presents for a line runs the line's operation on its operands. -/
def Obligations.HostLineRunsItsOperation : Prop :=
  ∀ (s : State) (l : Line) (rest : List Command), s.pending = l.assemble :: rest →
    step s = exec l.instr { s with operands := l.operands, pending := rest }

/-- 30_encoding.md section 4 (R69) with 40_address_codec.md R81: a callsign of any length, presented on six lanes and a 4-bit length, is
encoded as the pure function encodes the whole of it. -/
def Obligations.PortsLoseNothingOfACallsign : Prop :=
  ∀ (s : State) (cs : Callsign) (ssid : Byte) (rest : List Command),
    (s.pending = (Line.encodeAddress (some cs) ssid).assemble :: rest →
      ∃ t, step s = .next t ∧ t.results = { status := some .ok, addrOut := some (encodeAddress cs ssid) } ∧ t.block = s.block) ∧
    (s.pending = (Line.setSource (some cs) ssid).assemble :: rest →
      ∃ t, step s = .next t ∧ t.results = okResults ∧ t.wp = { s.wp with src := encodeAddress cs ssid } ∧ t.q = s.q) ∧
    (s.pending = (Line.setDestination (some cs) ssid).assemble :: rest →
      ∃ t, step s = .next t ∧ t.results = okResults ∧ t.wp = { s.wp with dst := encodeAddress cs ssid } ∧ t.q = s.q)

/-! ## Address codec -/

/-- 40_address_codec.md R81: ENCODE_ADDRESS, its encoding, its pure function on callsigns of any length, its operation and its one
condition. -/
def Obligations.EncodeAddressPacksCallsignAndSsid : Prop :=
  RowDecodes 0x1 (fun w => .encodeAddress (w.getLsbD 4) (w.extractLsb' 8 8) (w.extractLsb' 20 4).toNat) ∧
  (∀ (cs : Callsign) (ssid : Byte),
    (∀ i : Fin 6, (encodeAddress cs ssid)[i.val] = ((cs[i.val]?.getD 0x20) <<< 1) &&& (0xFE : Byte)) ∧
      (encodeAddress cs ssid)[6] = (0x60 : Byte) ||| ((ssid &&& (0x0F : Byte)) <<< 1)) ∧
  ∀ (ssid : Byte) (csLen : Nat) (s : State),
    exec (.encodeAddress true ssid csLen) s = .next { s with results := failedResults .invalidArgument } ∧
    ∃ a, exec (.encodeAddress false ssid csLen) s = .next { s with results := { status := some .ok, addrOut := some a } } ∧
      EncodesOperand s csLen ssid a

/-- 40_address_codec.md R83: DECODE_ADDRESS gives the outputs of `decode_address(addr_in)`, for any operand, and changes no state. -/
def Obligations.DecodeAddressUnpacksItsOperand : Prop :=
  RowDecodes 0x2 (fun _ => .decodeAddress) ∧
  ∀ s : State, ∃ r, exec .decodeAddress s = .next { s with results := r } ∧ DecodesTo r s.operands.addrIn

/-- 40_address_codec.md R85: decoding an encoded address gives the callsign padded to six with bit 7 of each character cleared, the SSID
masked and the bit 0; for 7-bit callsigns of length at most 6 that is the callsign padded with spaces; longer ones are truncated. -/
def Obligations.DecodeOfEncodedAddress : Prop :=
  ∀ (cs : Callsign) (ssid : Byte),
    (∀ i : Fin 6, (decodeCallsign (encodeAddress cs ssid))[i] = (cs[i.val]?.getD 0x20) &&& (0x7F : Byte)) ∧
    decodeSsid (encodeAddress cs ssid) = (ssid &&& (0x0F : Byte)).setWidth 4 ∧ extBit (encodeAddress cs ssid) = false ∧
    (cs.length ≤ 6 → (∀ c ∈ cs, c.getLsbD 7 = false) →
      (decodeCallsign (encodeAddress cs ssid)).toList = cs ++ List.replicate (6 - cs.length) 0x20) ∧
    (cs.length > 6 → encodeAddress cs ssid = encodeAddress (cs.take 6) ssid)

/-- 40_address_codec.md R86: what encoding a decoded address gives, that it is the identity exactly on the encoder's outputs, and how
the address is rebuilt. -/
def Obligations.EncodeOfDecodedAddress : Prop :=
  ∀ a : Address,
    let b := encodeAddress (decodeCallsign a).toList ((decodeSsid a).setWidth 8)
    (∀ i : Fin 6, b[i.val] = a[i.val] &&& (0xFE : Byte)) ∧ b[6] = (0x60 : Byte) ||| (a[6] &&& (0x1E : Byte)) ∧
    (b = a ↔ ∃ cs ssid, a = encodeAddress cs ssid) ∧
    (a[6].extractLsb' 5 3 = 0b011 → (∀ i : Fin 6, a[i.val].getLsbD 0 = false) →
      b.set 6 (b[6] ||| (if extBit a then (0x01 : Byte) else 0x00)) = a)

/-- 30_encoding.md R57, R58: the bits of an encoded character byte and of the SSID byte, and the SSID byte with the chain-extension bit
set. -/
def Obligations.AddressFieldBits : Prop :=
  ∀ (cs : Callsign) (ssid : Byte),
    let a := encodeAddress cs ssid
    (∀ i : Fin 6, a[i.val].extractLsb' 1 7 = ((cs[i.val]?.getD 0x20).extractLsb' 0 7) ∧ a[i.val].getLsbD 0 = false) ∧
    a[6].getLsbD 7 = false ∧ a[6].extractLsb' 5 2 = 0b11 ∧ a[6].extractLsb' 1 4 = ssid.extractLsb' 0 4 ∧ a[6].getLsbD 0 = false ∧
    (withExt a true)[6] = a[6] + 1

/-- 42_frame_builder.md R111: `with_ext(a, b)` replaces bit 0 of byte 6 by `b` and changes no other bit. -/
def Obligations.WithExtReplacesOneBit : Prop :=
  ∀ (a : Address) (b : Bool),
    extBit (withExt a b) = b ∧ (∀ i : Fin 6, (withExt a b)[i.val] = a[i.val]) ∧
      (withExt a b)[6].extractLsb' 1 7 = a[6].extractLsb' 1 7

/-- 40_address_codec.md section 4 (R87): setting and clearing the chain-extension bit leaves the callsign and the SSID an address decodes
to as they were. -/
def Obligations.ExtBitWritesKeepTheIdentity : Prop :=
  ∀ a : Address,
    extBit (setExt a) = true ∧ extBit (clearExt a) = false ∧
    decodeCallsign (setExt a) = decodeCallsign a ∧ decodeSsid (setExt a) = decodeSsid a ∧
    decodeCallsign (clearExt a) = decodeCallsign a ∧ decodeSsid (clearExt a) = decodeSsid a

/-! ## Packet model -/

/-- 41_packet_model.md R91: PKT_INIT writes every field of `WP`, and nothing else. -/
def Obligations.PktInitResetsEveryField : Prop :=
  RowDecodes 0x3 (fun _ => .pktInit) ∧
  ∀ s : State, ∃ p : Packet, exec .pktInit s = .next { s with wp := p, results := okResults } ∧
    (∀ i : Fin 6, p.src[i.val] = 0x40 ∧ p.dst[i.val] = 0x40 ∧ ∀ j : Fin 8, p.digi[j][i.val] = 0x40) ∧
    p.src[6] = s.params.initB7 ∧ p.dst[6] = s.params.initB7 ∧ (∀ j : Fin 8, p.digi[j][6] = s.params.initB7) ∧
    p.ndigi.val = 0 ∧ p.ctrl = 0x30 ∧ p.pid = 0xF0 ∧ (∀ i, i < 256 → p.payload.read i = 0x00) ∧ p.plen.val = 0 ∧
    (s.params.initB7 = 0x40 ∨ s.params.initB7 = 0x60 →
      extBit p.src = false ∧ extBit p.dst = false ∧ ∀ j : Fin 8, extBit p.digi[j] = false)

/-- 41_packet_model.md R92 and 43_packet_queue.md R123: PKT_INIT and Q_INIT are idempotent and total, and give the reset values. -/
def Obligations.InitializersAreIdempotentAndTotal : Prop :=
  (∀ s : State, ∃ t, exec .pktInit s = .next t ∧ exec .pktInit t = .next t ∧ (s.params = State.reset.params → t.wp = State.reset.wp)) ∧
  (∀ s s' : State, s.params = s'.params → ∃ t t', exec .pktInit s = .next t ∧ exec .pktInit s' = .next t' ∧ t.wp = t'.wp) ∧
  (∀ s : State, ∃ t, exec .qInit s = .next t ∧ exec .qInit t = .next t ∧ t.q.front = State.reset.q.front ∧
    t.q.rear = State.reset.q.rear)

/-- 41_packet_model.md R93: an absent callsign is a silent no-op of SET_SOURCE and SET_DESTINATION and InvalidArgument of
ADD_DIGIPEATER, state unchanged; an empty callsign is not absent and encodes as six spaces. -/
def Obligations.AbsentCallsignPolicy : Prop :=
  ∀ (ssid : Byte) (csLen : Nat) (s : State),
    exec (.setSource true ssid csLen) s = .next { s with results := okResults } ∧
    exec (.setDestination true ssid csLen) s = .next { s with results := okResults } ∧
    exec (.addDigipeater true ssid csLen) s = .next { s with results := failedResults .invalidArgument } ∧
    ∃ a : Address, exec (.setSource false ssid 0) s = .next { s with wp := { s.wp with src := a }, results := okResults } ∧
      exec (.setDestination false ssid 0) s = .next { s with wp := { s.wp with dst := a }, results := okResults } ∧
      ∀ i : Fin 6, a[i.val] = 0x40

/-- 41_packet_model.md R94: SET_SOURCE stores the encoded callsign in `WP.SRC`, or with `null = 1` changes nothing; it raises nothing. -/
def Obligations.SetSourceStoresTheEncodedCallsign : Prop :=
  RowDecodes 0x4 (fun w => .setSource (w.getLsbD 4) (w.extractLsb' 8 8) (w.extractLsb' 20 4).toNat) ∧
  ∀ (ssid : Byte) (csLen : Nat) (s : State),
    exec (.setSource true ssid csLen) s = .next { s with results := okResults } ∧
    ∃ a, exec (.setSource false ssid csLen) s = .next { s with wp := { s.wp with src := a }, results := okResults } ∧
      EncodesOperand s csLen ssid a ∧ extBit a = false

/-- 41_packet_model.md R96: SET_DESTINATION, the same on `WP.DST`. -/
def Obligations.SetDestinationStoresTheEncodedCallsign : Prop :=
  RowDecodes 0x5 (fun w => .setDestination (w.getLsbD 4) (w.extractLsb' 8 8) (w.extractLsb' 20 4).toNat) ∧
  ∀ (ssid : Byte) (csLen : Nat) (s : State),
    exec (.setDestination true ssid csLen) s = .next { s with results := okResults } ∧
    ∃ a, exec (.setDestination false ssid csLen) s = .next { s with wp := { s.wp with dst := a }, results := okResults } ∧
      EncodesOperand s csLen ssid a ∧ extBit a = false

/-- 41_packet_model.md R95: what GET_SOURCE returns after SET_SOURCE, and GET_DESTINATION after SET_DESTINATION. -/
def Obligations.GetReturnsWhatSetStored : Prop :=
  ∀ (ssid : Byte) (csLen : Nat) (s : State),
    (∃ (t u : State) (cs : DecodedCallsign), exec (.setSource false ssid csLen) s = .next t ∧ exec .getSource t = .next u ∧
      u.results = { status := some .ok, csOut := some cs, ssidOut := some ((ssid &&& (0x0F : Byte)).setWidth 4), extOut := some false } ∧
      ∀ i : Fin 6, cs[i] = operandChar s csLen i &&& (0x7F : Byte)) ∧
    (∃ (t u : State) (cs : DecodedCallsign), exec (.setDestination false ssid csLen) s = .next t ∧ exec .getDestination t = .next u ∧
      u.results = { status := some .ok, csOut := some cs, ssidOut := some ((ssid &&& (0x0F : Byte)).setWidth 4), extOut := some false } ∧
      ∀ i : Fin 6, cs[i] = operandChar s csLen i &&& (0x7F : Byte)) ∧
    (∃ t u v : State, exec (.setSource true ssid csLen) s = .next t ∧ exec .getSource t = .next u ∧ exec .getSource s = .next v ∧
      u.results = v.results) ∧
    (∃ t u v : State, exec (.setDestination true ssid csLen) s = .next t ∧ exec .getDestination t = .next u ∧
      exec .getDestination s = .next v ∧ u.results = v.results)

/-- 41_packet_model.md R98: ADD_DIGIPEATER. The chain clause has the packet invariant (10_state.md R26) as its premise. -/
def Obligations.AddDigipeaterAppendsARelay : Prop :=
  RowDecodes 0x6 (fun w => .addDigipeater (w.getLsbD 4) (w.extractLsb' 8 8) (w.extractLsb' 20 4).toNat) ∧
  ∀ (ssid : Byte) (csLen : Nat) (s : State),
    exec (.addDigipeater true ssid csLen) s = .next { s with results := failedResults .invalidArgument } ∧
    (s.wp.ndigi.val = 8 → exec (.addDigipeater false ssid csLen) s = .next { s with results := failedResults .relayChainFull }) ∧
    (s.wp.ndigi.val < 8 → ∃ (digi : Vector Address 8) (ndigi : Fin 9),
      exec (.addDigipeater false ssid csLen) s =
        .next { s with wp := { s.wp with digi := digi, ndigi := ndigi }
                       results := { status := some .ok, countOut := some (BitVec.ofNat 4 (s.wp.ndigi.val + 1)) } } ∧
      ndigi.val = s.wp.ndigi.val + 1 ∧
      (∀ j : Fin 8, j.val = s.wp.ndigi.val → ∃ a, EncodesOperand s csLen ssid a ∧ digi[j] = a.set 6 (a[6] ||| (0x01 : Byte))) ∧
      (∀ j : Fin 8, j.val + 1 = s.wp.ndigi.val → digi[j] = (s.wp.digi[j]).set 6 ((s.wp.digi[j])[6] &&& (0xFE : Byte))) ∧
      (∀ j : Fin 8, j.val ≠ s.wp.ndigi.val → j.val + 1 ≠ s.wp.ndigi.val → digi[j] = s.wp.digi[j]) ∧
      (s.wp.Inv → ∀ j : Fin 8, j.val < ndigi.val → extBit digi[j] = decide (j.val + 1 = ndigi.val)))

/-- 41_packet_model.md section 5 (R99 items 2 to 4): ADD_DIGIPEATER commands on a packet without relays return the counts 1 to 8 and store
the callsigns in call order with the chain-extension bit on the newest only; the ninth and every later one fails with RelayChainFull and
the packet keeps its eight relays. -/
def Obligations.RelayChainFillsInCallOrder : Prop :=
  ∀ (calls : List (Callsign × Byte)) (s : State), s.wp.ndigi.val = 0 →
    s.pending = calls.map (fun c => (Line.addDigipeater (some c.1) c.2).assemble) →
    ∀ k, k ≤ calls.length → ∃ t : State, run k s = .next t ∧ t.wp.ndigi.val = min k 8 ∧
      (∀ (i : Fin 8) (c : Callsign × Byte), i.val < min k 8 → calls[i.val]? = some c →
        t.wp.digi[i] = withExt (encodeAddress c.1 c.2) (decide (i.val + 1 = min k 8))) ∧
      (1 ≤ k → k ≤ 8 → t.results = { status := some .ok, countOut := some (BitVec.ofNat 4 k) }) ∧
      (8 < k → t.results = failedResults .relayChainFull)

/-- 41_packet_model.md R100: GET_SOURCE decodes `WP.SRC`; the bit is 0 where the packet invariant holds. -/
def Obligations.GetSourceDecodesTheSource : Prop :=
  RowDecodes 0x7 (fun _ => .getSource) ∧
  ∀ s : State, ∃ r, exec .getSource s = .next { s with results := r } ∧ DecodesTo r s.wp.src ∧
    (s.wp.Inv → r.extOut = some false)

/-- 41_packet_model.md R101: GET_DESTINATION decodes `WP.DST`; the bit is 0 where the packet invariant holds. -/
def Obligations.GetDestinationDecodesTheDestination : Prop :=
  RowDecodes 0x8 (fun _ => .getDestination) ∧
  ∀ s : State, ∃ r, exec .getDestination s = .next { s with results := r } ∧ DecodesTo r s.wp.dst ∧
    (s.wp.Inv → r.extOut = some false)

/-- 41_packet_model.md R103: GET_DIGIPEATER under the default parameter. -/
def Obligations.GetDigipeaterDecodesARelay : Prop :=
  RowDecodes 0x9 (fun w => .getDigipeater (w.extractLsb' 16 4).toNat) ∧
  ∀ (index : Nat) (s : State), s.params.digiIndexEqCountFails = true →
    (s.wp.ndigi.val ≤ index → exec (.getDigipeater index) s = .next { s with results := failedResults .indexOutOfRange }) ∧
    ∀ i : Fin 8, i.val = index → index < s.wp.ndigi.val →
      ∃ r, exec (.getDigipeater index) s = .next { s with results := r } ∧ DecodesTo r s.wp.digi[i] ∧
        (s.wp.Inv → r.extOut = some (decide (index + 1 = s.wp.ndigi.val)))

/-- 41_packet_model.md section 6 (R104): with `DIGI_INDEX_EQ_COUNT_FAILS` false, GET_DIGIPEATER fails for an index above the count and for
8, and at `index = NDIGI < 8` returns the slot there, after PKT_INIT six spaces, SSID 0, bit 0. -/
def Obligations.GetDigipeaterAtTheCountWhenAllowed : Prop :=
  ∀ s : State, s.params.digiIndexEqCountFails = false →
    (∀ index, s.wp.ndigi.val < index ∨ 8 ≤ index →
      exec (.getDigipeater index) s = .next { s with results := failedResults .indexOutOfRange }) ∧
    (∀ i : Fin 8, i.val ≤ s.wp.ndigi.val →
      ∃ r, exec (.getDigipeater i.val) s = .next { s with results := r } ∧ DecodesTo r s.wp.digi[i]) ∧
    (s.params.initB7 = 0x40 ∨ s.params.initB7 = 0x60 → ∃ t u, exec .pktInit s = .next t ∧ exec (.getDigipeater 0) t = .next u ∧
      u.results = { status := some .ok, csOut := some (Vector.replicate 6 0x20), ssidOut := some 0, extOut := some false })

/-- 41_packet_model.md R105: SET_PAYLOAD copies the first `min(pl_in_len, 256)` bytes, leaves every other byte of the buffer as it was
and records the length. The premise is the canonical form of the buffer (log 7), which `StepKeepsTheInvariant` keeps. -/
def Obligations.SetPayloadCopiesAndTruncates : Prop :=
  RowDecodes 0xA (fun _ => .setPayload) ∧
  ∀ s : State, Memory.wf s.wp.payload → ∃ (m : Memory) (n : Fin 257),
    exec .setPayload s = .next { s with wp := { s.wp with payload := m, plen := n }, results := okResults } ∧
    n.val = min s.operands.plIn.length 256 ∧
    (∀ i, i < n.val → some (m.read i) = s.operands.plIn[i]?) ∧ (∀ i, n.val ≤ i → m.read i = s.wp.payload.read i) ∧ Memory.wf m

/-- 10_state.md section 2 (R23): the relay count is 0 after PKT_INIT, one greater after an ADD_DIGIPEATER that succeeds, the popped
packet's after a Q_POP of a slot that holds one, and unchanged by everything else, a failed operation included. -/
def Obligations.RelayCountOnlyGrowsOrIsReplaced : Prop :=
  ∀ (i : Instr) (s t : State), exec i s = .next t →
    t.wp.ndigi.val ≤ 8 ∧
    (i = .pktInit → t.wp.ndigi.val = 0) ∧
    (∀ null ssid csLen, i = .addDigipeater null ssid csLen → t.succeeded → t.wp.ndigi.val = s.wp.ndigi.val + 1) ∧
    (∀ (f : Fin 10) (p : Packet), i = .qPop → s.q.front = some f → s.q.slot[f] = some p → t.wp.ndigi = p.ndigi) ∧
    (¬ t.succeeded → t.wp.ndigi = s.wp.ndigi) ∧
    (i ≠ .pktInit → (∀ null ssid csLen, i ≠ .addDigipeater null ssid csLen) → i ≠ .qPop → t.wp.ndigi = s.wp.ndigi)

/-! ## Frame builder -/

/-- 42_frame_builder.md R112, R114, R115: BUILD_FRAME. The frame is written out by offset (30_encoding.md R61): destination as stored,
source with its bit 1 exactly when there are no relays, relays with the bit on the last only, `PLEN` payload bytes, then the checksum of
all bytes before it, low byte first. `WP` and `Q` are unchanged (R116). -/
def Obligations.BuildFrameEmitsTheFrame : Prop :=
  RowDecodes 0xB (fun w => .buildFrame (w.getLsbD 4)) ∧
  ∀ s : State,
    let n := s.wp.ndigi.val
    let p := s.wp.plen.val
    let len := 7 + 7 + 7 * n + p + 2
    exec (.buildFrame true) s = .next { s with results := failedResults .invalidArgument } ∧
    (s.params.maxFrameLen < len → exec (.buildFrame false) s = .next { s with results := failedResults .frameTooLong }) ∧
    (len ≤ s.params.maxFrameLen → ∃ f : List Byte,
      exec (.buildFrame false) s =
        .next { s with results := { status := some .ok, frame := some f, frameLen := some (BitVec.ofNat 9 len) } } ∧
      f.length = len ∧ 16 ≤ len ∧ len ≤ 328 ∧
      (∀ k : Fin 7, f[k.val]? = some s.wp.dst[k]) ∧
      (∀ k : Fin 7, f[7 + k.val]? = some (withExt s.wp.src (decide (n = 0)))[k]) ∧
      (∀ (i : Fin 8) (k : Fin 7), i.val < n → f[14 + 7 * i.val + k.val]? = some (withExt s.wp.digi[i] (decide (i.val + 1 = n)))[k]) ∧
      (∀ j, j < p → f[14 + 7 * n + j]? = some (s.wp.payload.read j)) ∧
      f[len - 2]? = some ((Config.checksum (f.take (len - 2))).extractLsb' 0 8) ∧
      f[len - 1]? = some ((Config.checksum (f.take (len - 2))).extractLsb' 8 8))

/-- 42_frame_builder.md R113: a frame that fits `MAX_FRAME_LEN` is not rejected, so with 328 (or more) the length check never fires; an
over-long frame is rejected with FrameTooLong, no output and no state change. -/
def Obligations.LengthCheckRejectsOnlyOverLongFrames : Prop :=
  ∀ s : State,
    (328 ≤ s.params.maxFrameLen → ∃ t, exec (.buildFrame false) s = .next t ∧ t.succeeded) ∧
    (16 + 7 * s.wp.ndigi.val + s.wp.plen.val ≤ s.params.maxFrameLen → ∃ t, exec (.buildFrame false) s = .next t ∧ t.succeeded) ∧
    (s.params.maxFrameLen < 16 + 7 * s.wp.ndigi.val + s.wp.plen.val →
      exec (.buildFrame false) s = .next { s with results := failedResults .frameTooLong })

/-- 30_encoding.md R63: of the `NDIGI + 2` address blocks of a frame exactly the last has its chain-extension bit set. -/
def Obligations.ExactlyTheLastBlockIsMarked : Prop :=
  ∀ s : State, s.wp.Inv → 16 + 7 * s.wp.ndigi.val + s.wp.plen.val ≤ s.params.maxFrameLen →
    ∃ (t : State) (f : List Byte), exec (.buildFrame false) s = .next t ∧ t.results.frame = some f ∧
      ∀ b, b ≤ s.wp.ndigi.val + 1 → ∃ x : Byte, f[7 * b + 6]? = some x ∧ x.getLsbD 0 = decide (b = s.wp.ndigi.val + 1)

/-- 42_frame_builder.md R117: where the packet invariant holds, the emitted relay blocks are the stored ones byte for byte, and the
destination block is emitted as stored with its bit 0. -/
def Obligations.EmittedRelaysAreTheStoredOnes : Prop :=
  ∀ s : State, s.wp.Inv → 16 + 7 * s.wp.ndigi.val + s.wp.plen.val ≤ s.params.maxFrameLen →
    ∃ (t : State) (f : List Byte), exec (.buildFrame false) s = .next t ∧ t.results.frame = some f ∧ extBit s.wp.dst = false ∧
      f.take (14 + 7 * s.wp.ndigi.val + s.wp.plen.val) =
        s.wp.dst.toList ++ (withExt s.wp.src (decide (s.wp.ndigi.val = 0))).toList ++
          (s.wp.digi.toList.take s.wp.ndigi.val).flatMap (fun a => a.toList) ++
          (List.range s.wp.plen.val).map (fun j => s.wp.payload.read j)

/-- 42_frame_builder.md R110: the frame depends on the destination, the source, the relays of the chain, the payload and their counts,
and on nothing else of the packet. -/
def Obligations.FrameDependsOnNothingElse : Prop :=
  ∀ s s' : State, s.params.maxFrameLen = s'.params.maxFrameLen → s.wp.dst = s'.wp.dst → s.wp.src = s'.wp.src →
    s.wp.ndigi = s'.wp.ndigi → (∀ i : Fin 8, i.val < s.wp.ndigi.val → s.wp.digi[i] = s'.wp.digi[i]) → s.wp.plen = s'.wp.plen →
    (∀ j, j < s.wp.plen.val → s.wp.payload.read j = s'.wp.payload.read j) →
    ∃ t t', exec (.buildFrame false) s = .next t ∧ exec (.buildFrame false) s' = .next t' ∧ t.results = t'.results

/-- 42_frame_builder.md section 2 (R118 item 1): the frame of a fresh packet is seven encoded spaces, six encoded spaces and 0x41, then
the checksum of those fourteen bytes. -/
def Obligations.FreshPacketFrame : Prop :=
  ∀ s : State, s.params.initB7 = 0x40 → 16 ≤ s.params.maxFrameLen →
    let body : List Byte := List.replicate 13 0x40 ++ [0x41]
    ∃ t u, exec .pktInit s = .next t ∧ exec (.buildFrame false) t = .next u ∧
      u.results.frame = some (body ++ [(Config.checksum body).extractLsb' 0 8, (Config.checksum body).extractLsb' 8 8]) ∧
      u.results.frameLen = some 16

/-! ## Packet queue -/

/-- 43_packet_queue.md R122: Q_INIT sets both indices to -1 and touches nothing else; nothing can be popped afterwards. -/
def Obligations.QInitEmptiesTheIndices : Prop :=
  RowDecodes 0xC (fun _ => .qInit) ∧
  ∀ s : State, ∃ t, exec .qInit s = .next t ∧ t = { s with q := { s.q with front := none, rear := none }, results := okResults } ∧
    indexValue t.q.front = -1 ∧ indexValue t.q.rear = -1 ∧ exec .qPop t = .next { t with results := failedResults .queueEmpty }

/-- 43_packet_queue.md R124: Q_PUSH. -/
def Obligations.QPushCopiesThePacketIntoTheNextSlot : Prop :=
  RowDecodes 0xD (fun _ => .qPush) ∧
  ∀ s : State,
    let front := indexValue s.q.front
    let rear := indexValue s.q.rear
    ((front = rear + 1 ∨ (front = 0 ∧ rear = 9)) → exec .qPush s = .next { s with results := failedResults .queueFull }) ∧
    (¬ (front = rear + 1 ∨ (front = 0 ∧ rear = 9)) → ∃ q' : Queue, exec .qPush s = .next { s with q := q', results := okResults } ∧
      indexValue q'.rear = (rear + 1) % 10 ∧ indexValue q'.front = (if front = -1 then 0 else front) ∧
      ∀ j : Fin 10, q'.slot[j] = if (j.val : Int) = (rear + 1) % 10 then some s.wp else s.q.slot[j])

/-- 43_packet_queue.md R127: Q_POP. A slot nothing was pushed to has no value (10_state.md R36), so there the packet is free. -/
def Obligations.QPopCopiesTheFrontPacketOut : Prop :=
  RowDecodes 0xE (fun _ => .qPop) ∧
  ∀ s : State,
    (indexValue s.q.front = -1 → exec .qPop s = .next { s with results := failedResults .queueEmpty }) ∧
    ∀ f : Fin 10, indexValue s.q.front = f.val → ∃ (p : Packet) (q' : Queue),
      exec .qPop s = .next { s with wp := p, q := q', results := okResults } ∧
      (∀ x, s.q.slot[f] = some x → p = x) ∧ q'.slot = s.q.slot ∧
      (s.q.front = s.q.rear → indexValue q'.front = -1 ∧ indexValue q'.rear = -1) ∧
      (s.q.front ≠ s.q.rear → indexValue q'.front = ((f.val : Int) + 1) % 10 ∧ q'.rear = s.q.rear)

/-- 43_packet_queue.md R125: the full test holds exactly when ten packets are resident. -/
def Obligations.FullTestIsExact : Prop :=
  ∀ q : Queue, (q.front = none ↔ q.rear = none) → (q.isFull = true ↔ q.count = 10)

/-- 43_packet_queue.md R131: what pushes and pops do to the number of resident packets, and that emptying the queue starts the indices
again at slot 0. -/
def Obligations.CountLaw : Prop :=
  ∀ s : State, (s.q.front = none ↔ s.q.rear = none) →
    (∃ t, exec .qPush s = .next t ∧ (t.succeeded → t.q.count = s.q.count + 1) ∧ (¬ t.succeeded → t.q.count = s.q.count)) ∧
    (∃ t, exec .qPop s = .next t ∧ (t.succeeded → t.q.count + 1 = s.q.count) ∧ (¬ t.succeeded → t.q.count = s.q.count) ∧
      (t.succeeded → s.q.count = 1 → indexValue t.q.front = -1 ∧ indexValue t.q.rear = -1 ∧
        ∃ u, exec .qPush t = .next u ∧ indexValue u.q.front = 0 ∧ indexValue u.q.rear = 0))

/-- 10_state.md R32: the queue is a list of at most ten packets: Q_INIT empties it, Q_PUSH appends `WP` or fails at ten, Q_POP takes the
head into `WP` or fails on the empty list; nothing else touches it. -/
def Obligations.QueueRefinesABoundedList : Prop :=
  ∀ s : State, (s.q.front = none ↔ s.q.rear = none) →
    s.q.contents.length ≤ 10 ∧
    (∃ t, exec .qInit s = .next t ∧ t.q.contents = []) ∧
    (∃ t, exec .qPush s = .next t ∧
      ((s.q.contents.length = 10 ∧ t.results = failedResults .queueFull ∧ t.q = s.q) ∨
        (s.q.contents.length < 10 ∧ t.succeeded ∧ t.q.contents = s.q.contents ++ [some s.wp] ∧ t.wp = s.wp))) ∧
    (∃ t, exec .qPop s = .next t ∧
      ((s.q.contents = [] ∧ t.results = failedResults .queueEmpty ∧ t.q = s.q ∧ t.wp = s.wp) ∨
        ∃ o rest, s.q.contents = o :: rest ∧ t.succeeded ∧ t.q.contents = rest ∧ ∀ x, o = some x → t.wp = x)) ∧
    ∀ (i : Instr) (t : State), exec i s = .next t → i ≠ .qInit → i ≠ .qPush → i ≠ .qPop → t.q = s.q

/-- 43_packet_queue.md R130: first in, first out. A Q_PUSH that succeeds with `k` packets resident, then any run of commands without
Q_INIT in which exactly `k` pops succeed, then a Q_POP: it succeeds and sets `WP` to the packet pushed, equal in every field. -/
def Obligations.QueueIsFirstInFirstOut : Prop :=
  ∀ (s : State) (n : Nat), (s.q.front = none ↔ s.q.rear = none) → NextIs .qPush s → s.q.count < 10 →
    (∀ c ∈ s.pending, decode c.word ≠ .ok .qInit) →
    ∃ s1 s2 : State, step s = .next s1 ∧ s1.succeeded ∧ run n s1 = .next s2 ∧
      (popsDuring n s1 = s.q.count → NextIs .qPop s2 → ∃ s3 : State, step s2 = .next s3 ∧ s3.succeeded ∧ s3.wp = s.wp)

/-! ## Conditions and whole-machine rules -/

/-- 60_exceptions.md R141: an operation that raises a condition writes no state, its status carries the code and no other output has a
value. -/
def Obligations.ConditionsWriteNoState : Prop :=
  ∀ (i : Instr) (s t : State), exec i s = .next t → ¬ t.succeeded → ∃ c, t = { s with results := failedResults c }

/-- 60_exceptions.md R153, R145: every operation in every state ends in a next state with exactly the conditions of the matrix, at most
one of them, and a word that is no command raises IllegalCommand whatever the state is. The premise on the indices is 10_state.md R31,
which `StepKeepsTheInvariant` keeps. -/
def Obligations.ConditionMatrixIsExact : Prop :=
  (∀ (i : Instr) (s : State), s.params.digiIndexEqCountFails = true → (s.q.front = none ↔ s.q.rear = none) →
    ∃ t, exec i s = .next t ∧ ∀ c, t.results.status = some (.raised c) ↔ Raises i s c) ∧
  ∀ (s : State) (c : Command) (rest : List Command), s.pending = c :: rest → (∀ i, decode c.word ≠ .ok i) →
    ∃ t, step s = .next t ∧ t.results = failedResults .illegalCommand ∧ t.block = s.block

/-- 10_state.md section 6 (R37): an operation writes only the state its row of the access matrix marks with w, and no operation writes
the parameters, the operand ports or the commands to come. -/
def Obligations.OnlyTheMarkedStateIsWritten : Prop :=
  ∀ (i : Instr) (s t : State), exec i s = .next t →
    (t.wp.src = s.wp.src ∨ i = .pktInit ∨ (∃ a b c, i = .setSource a b c) ∨ i = .qPop) ∧
    (t.wp.dst = s.wp.dst ∨ i = .pktInit ∨ (∃ a b c, i = .setDestination a b c) ∨ i = .qPop) ∧
    ((t.wp.digi = s.wp.digi ∧ t.wp.ndigi = s.wp.ndigi) ∨ i = .pktInit ∨ (∃ a b c, i = .addDigipeater a b c) ∨ i = .qPop) ∧
    ((t.wp.ctrl = s.wp.ctrl ∧ t.wp.pid = s.wp.pid) ∨ i = .pktInit ∨ i = .qPop) ∧
    ((t.wp.payload = s.wp.payload ∧ t.wp.plen = s.wp.plen) ∨ i = .pktInit ∨ i = .setPayload ∨ i = .qPop) ∧
    (t.q.slot = s.q.slot ∨ i = .qPush) ∧
    ((t.q.front = s.q.front ∧ t.q.rear = s.q.rear) ∨ i = .qInit ∨ i = .qPush ∨ i = .qPop) ∧
    t.params = s.params ∧ t.operands = s.operands ∧ t.pending = s.pending

/-- 20_memory.md R48: the reading operations write no state and may be repeated with the same result; all others but ADD_DIGIPEATER,
Q_PUSH and Q_POP are idempotent too, and those three are not. The premise is the canonical form of the buffer (log 7). -/
def Obligations.RepeatingAnOperation : Prop :=
  (∀ (i : Instr) (s : State), Memory.wf s.wp.payload → (∀ a b c, i ≠ .addDigipeater a b c) → i ≠ .qPush → i ≠ .qPop →
    ∃ t, exec i s = .next t ∧ exec i t = .next t ∧ (readsOnly i = true → t.block = s.block)) ∧
  (∃ s t u : State, exec (.addDigipeater false 0 0) s = .next t ∧ exec (.addDigipeater false 0 0) t = .next u ∧ u.block ≠ t.block) ∧
  (∃ s t u : State, exec .qPush s = .next t ∧ exec .qPush t = .next u ∧ u.block ≠ t.block) ∧
  (∃ s t u : State, exec .qPop s = .next t ∧ exec .qPop t = .next u ∧ u.block ≠ t.block)

/-- 10_state.md section 4 (R34): stale data (payload bytes at `PLEN` and above, relay slots at `NDIGI` and above, queue slots that are not
resident) reaches no result: two states that differ in nothing else give the same results, and still differ in nothing else. -/
def Obligations.StaleDataStaysInvisible : Prop :=
  ∀ (i : Instr) (s s' : State), s.Inv → s'.Inv → s.SameButStale s' → s.params.digiIndexEqCountFails = true →
    ∃ t t', exec i s = .next t ∧ exec i s' = .next t' ∧ t.results = t'.results ∧ t.SameButStale t'

/-- 10_state.md section 2 (R26), section 3 (R31) and section 5 (R36): every step keeps the invariant, in every state that meets it. -/
def Obligations.StepKeepsTheInvariant : Prop := ∀ s t : State, s.Inv → step s = .next t → t.Inv

/-- 10_state.md section 5 (R35): the reset state meets the invariant. -/
def Obligations.ResetMeetsTheInvariant : Prop := State.reset.Inv

/-- 70_reset_and_hazards.md R155: reset leaves what PKT_INIT followed by Q_INIT would leave, value by value, and queue slots without a
value. -/
def Obligations.ResetIsPktInitThenQInit : Prop :=
  (∀ s : State, s.params = State.reset.params →
    ∃ t u, exec .pktInit s = .next t ∧ exec .qInit t = .next u ∧ u.wp = State.reset.wp ∧ u.q.front = State.reset.q.front ∧
      u.q.rear = State.reset.q.rear) ∧
  (∀ i : Fin 7, State.reset.wp.src[i] = 0x40 ∧ State.reset.wp.dst[i] = 0x40 ∧ ∀ j : Fin 8, State.reset.wp.digi[j][i] = 0x40) ∧
  State.reset.params.initB7 = 0x40 ∧ State.reset.wp.ndigi.val = 0 ∧ State.reset.wp.ctrl = 0x30 ∧ State.reset.wp.pid = 0xF0 ∧
  (∀ i, i < 256 → State.reset.wp.payload.read i = 0) ∧ State.reset.wp.plen.val = 0 ∧
  indexValue State.reset.q.front = -1 ∧ indexValue State.reset.q.rear = -1 ∧ ∀ i : Fin 10, State.reset.q.slot[i] = none

/-- 30_encoding.md R66: the indices of every state, read as 60_exceptions.md R152 has it, are -1 or 0 to 9, and the 5-bit patterns are
0b11111 and 0b00000 to 0b01001. -/
def Obligations.QueueIndexValuesAndPatterns : Prop :=
  (∀ s : State, Diagnostic.front s = indexValue s.q.front ∧ Diagnostic.rear s = indexValue s.q.rear ∧
    (Diagnostic.front s = -1 ∨ (0 ≤ Diagnostic.front s ∧ Diagnostic.front s ≤ 9)) ∧
    (Diagnostic.rear s = -1 ∨ (0 ≤ Diagnostic.rear s ∧ Diagnostic.rear s ≤ 9))) ∧
  Diagnostic.indexPattern none = 0b11111 ∧ indexValue none = -1 ∧
  ∀ i : Fin 10, Diagnostic.indexPattern (some i) = BitVec.ofNat 5 i.val ∧ indexValue (some i) = i.val

/-- 60_exceptions.md section 5 (R152): the diagnostic reads return the current state, the two counts without loss in their 4 and 9 bits
(00_scope.md R12), and see what the operations write: the defaults and empty indices after PKT_INIT and Q_INIT, the bytes and the length
after SET_PAYLOAD. That they are functions of a state is the model's choice (log 16); the premise is the canonical buffer (log 7). -/
def Obligations.DiagnosticReadsShowTheState : Prop :=
  (∀ s : State, Diagnostic.ctrl s = s.wp.ctrl ∧ Diagnostic.pid s = s.wp.pid ∧ (Diagnostic.ndigi s).toNat = s.wp.ndigi.val ∧
    (Diagnostic.plen s).toNat = s.wp.plen.val ∧ (∀ i : Fin 256, Diagnostic.payload s i = s.wp.payload.read i.val) ∧
    Diagnostic.front s = indexValue s.q.front ∧ Diagnostic.rear s = indexValue s.q.rear) ∧
  (∀ s : State, ∃ t u, exec .pktInit s = .next t ∧ exec .qInit t = .next u ∧ Diagnostic.ctrl u = 0x30 ∧ Diagnostic.pid u = 0xF0 ∧
    Diagnostic.ndigi u = 0 ∧ Diagnostic.plen u = 0 ∧ (∀ i : Fin 256, Diagnostic.payload u i = 0) ∧ Diagnostic.front u = -1 ∧
    Diagnostic.rear u = -1) ∧
  ∀ s : State, Memory.wf s.wp.payload → ∃ t, exec .setPayload s = .next t ∧
    (Diagnostic.plen t).toNat = min s.operands.plIn.length 256 ∧
    ∀ i : Fin 256, some (Diagnostic.payload t i) =
      if i.val < min s.operands.plIn.length 256 then s.operands.plIn[i.val]? else some (Diagnostic.payload s i)
end

