-- ==== Sys2Proof/Laws/Codec.lean ====
section
/-! SUPPORT. The chain-extension bit of an address and the encoded address, byte by byte. -/

namespace Sys2Proof.Machine

@[simp] theorem extBit_withExt (a : Address) (b : Bool) : extBit (withExt a b) = b := by
  cases b <;> simp [extBit, withExt]

@[simp] theorem extBit_setExt (a : Address) : extBit (setExt a) = true := by simp [extBit, setExt]

@[simp] theorem extBit_clearExt (a : Address) : extBit (clearExt a) = false := by simp [extBit, clearExt]

/-- Bytes 0 to 5 are untouched by a write of the bit. -/
theorem withExt_getElem_of_lt (a : Address) (b : Bool) (i : Nat) (h : i < 6) : (withExt a b)[i] = a[i] := by
  simp [withExt, show ¬ 6 = i by omega]

theorem withExt_getElem_six (a : Address) (b : Bool) : (withExt a b)[6] = (a[6] &&& (0xFE : Byte)) ||| (if b then (0x01 : Byte) else 0x00) := by
  simp [withExt]

theorem setExt_eq_withExt (a : Address) : setExt a = withExt a true := by
  unfold setExt withExt
  congr 1
  apply BitVec.eq_of_getLsbD_eq
  intro j hj
  interval_cases j <;> simp

theorem clearExt_eq_withExt (a : Address) : clearExt a = withExt a false := by simp [clearExt, withExt]

/-- A write of the bit over a write of the bit. -/
@[simp] theorem withExt_withExt (a : Address) (b c : Bool) : withExt (withExt a b) c = withExt a c := by
  unfold withExt
  simp only [Vector.set_set, Vector.getElem_set_self]
  congr 1
  cases b <;> cases c <;> simp <;> (apply BitVec.eq_of_getLsbD_eq; intro j hj; interval_cases j <;> simp)

/-- Writing the bit an address already has changes nothing. -/
theorem withExt_eq_self {a : Address} {b : Bool} (h : extBit a = b) : withExt a b = a := by
  have e : (a[6] &&& (0xFE : Byte)) ||| (if b then (0x01 : Byte) else 0x00) = a[6] := by
    subst h
    apply BitVec.eq_of_getLsbD_eq
    intro j hj
    cases hb : a[6].getLsbD 0 <;> interval_cases j <;> simp_all [extBit]
  unfold withExt
  rw [e, Vector.set_getElem_self]

/-- The six character bytes of an encoded address (R57). -/
theorem encodeAddress_char (cs : Callsign) (ssid : Byte) (i : Fin 6) :
    (encodeAddress cs ssid)[i.val] = charByte (padChar cs i) := by
  fin_cases i <;> rfl

@[simp] theorem encodeAddress_ssid (cs : Callsign) (ssid : Byte) : (encodeAddress cs ssid)[6] = ssidByte ssid := rfl

/-- The encoder always clears the bit (R81). -/
@[simp] theorem extBit_encodeAddress (cs : Callsign) (ssid : Byte) : extBit (encodeAddress cs ssid) = false := by
  simp [extBit, ssidByte]

/-- Characters past the sixth do not matter. -/
theorem encodeAddress_congr {cs cs' : Callsign} (ssid : Byte) (h : ∀ i < 6, padChar cs i = padChar cs' i) :
    encodeAddress cs ssid = encodeAddress cs' ssid := by
  simp [encodeAddress, h]

/-- Two addresses with the same bytes are the same. -/
theorem address_ext {a b : Address} (h : ∀ i : Fin 6, a[i.val] = b[i.val]) (h6 : a[6] = b[6]) : a = b := by
  apply Vector.ext
  intro i hi
  rcases Nat.lt_or_ge i 6 with h' | h'
  · exact h ⟨i, h'⟩
  · obtain rfl : i = 6 := by omega
    exact h6

end Sys2Proof.Machine
end

