-- ==== Sys2Proof/Laws/Decode.lean ====
section
/-! SUPPORT. The fields of an assembled command word, and what the decoder does on a word by its `op`. -/

namespace Sys2Proof

variable (op : BitVec 4) (null : Bool) (ssid : Byte) (index csLen : Nat)

@[simp] theorem packWord_opField : (packWord op null ssid index csLen).opField = op := by
  apply BitVec.eq_of_getLsbD_eq
  intro j hj
  simp only [packWord, CommandWord.opField]
  interval_cases j <;> simp

@[simp] theorem packWord_nullField : (packWord op null ssid index csLen).nullField = null := by
  simp [packWord, CommandWord.nullField]

@[simp] theorem packWord_ssidField : (packWord op null ssid index csLen).ssidField = ssid := by
  apply BitVec.eq_of_getLsbD_eq
  intro j hj
  simp only [packWord, CommandWord.ssidField]
  interval_cases j <;> simp

theorem packWord_indexField (h : index < 16) : (packWord op null ssid index csLen).indexField = index := by
  have e : (packWord op null ssid index csLen).extractLsb' 16 4 = BitVec.ofNat 4 index := by
    apply BitVec.eq_of_getLsbD_eq
    intro j hj
    simp only [packWord]
    interval_cases j <;> simp
  simp only [CommandWord.indexField, e, BitVec.toNat_ofNat]
  omega

theorem packWord_csLenField (h : csLen < 16) : (packWord op null ssid index csLen).csLenField = csLen := by
  have e : (packWord op null ssid index csLen).extractLsb' 20 4 = BitVec.ofNat 4 csLen := by
    apply BitVec.eq_of_getLsbD_eq
    intro j hj
    simp only [packWord]
    interval_cases j <;> simp
  simp only [CommandWord.csLenField, e, BitVec.toNat_ofNat]
  omega

@[simp] theorem packWord_reserved : packWord op null ssid index csLen &&& reservedMask = 0 := by
  apply BitVec.eq_of_getLsbD_eq
  intro j hj
  simp only [packWord, reservedMask]
  interval_cases j <;> simp

theorem packWord_row : packWord op null ssid index csLen &&& rowMask = op.setWidth 32 := by
  apply BitVec.eq_of_getLsbD_eq
  intro j hj
  simp only [packWord, rowMask]
  interval_cases j <;> simp

/-- The `op` of a word as its low four bits. -/
theorem and_opMask (w : CommandWord) : w &&& 0xF = w.opField.setWidth 32 := by
  apply BitVec.eq_of_getLsbD_eq
  intro j hj
  simp only [CommandWord.opField]
  interval_cases j <;> simp

/-- A word matches a row exactly by its `op` and its reserved bits. -/
theorem of_row {w : CommandWord} {o : BitVec 4} (h : w &&& rowMask = o.setWidth 32) : w &&& reservedMask = 0 ∧ w.opField = o := by
  have hb : ∀ j, (w &&& rowMask).getLsbD j = (o.setWidth 32).getLsbD j := fun j => by rw [h]
  constructor
  · apply BitVec.eq_of_getLsbD_eq
    intro j hj
    have hj' := hb j
    clear h hb
    simp only [reservedMask, rowMask] at *
    interval_cases j <;> simp_all
  · apply BitVec.eq_of_getLsbD_eq
    intro j hj
    have hj' := hb j
    clear h hb
    simp only [CommandWord.opField, rowMask] at *
    interval_cases j <;> simpa using hj'

end Sys2Proof
end

