-- ==== Sys2Proof/Laws/Memory.lean ====
section
/-! SUPPORT. The payload buffer: reads after writes, the canonical form, and that equal contents are equal lists. -/

namespace Sys2Proof.Machine.Memory

@[simp] theorem read_nil (i : Nat) : read [] i = unlisted := rfl

theorem read_cons (c : Host.Cell) (m : Memory) (i : Nat) : read (c :: m) i = if c.1 = i then c.2 else read m i := rfl

theorem wf_nil : wf [] := by simp [wf]

theorem wf_tail {c : Host.Cell} {m : Memory} (h : wf (c :: m)) : wf m :=
  ⟨(List.pairwise_cons.1 h.1).2, fun d hd => h.2 d (List.mem_cons_of_mem _ hd)⟩

/-- Below every listed index a buffer reads as unlisted. -/
theorem read_of_lt {m : Memory} {i : Nat} (h : ∀ c ∈ m, i < c.1) : read m i = unlisted := by
  induction m with
  | nil => rfl
  | cons c m ih =>
    have hc := h c (by simp)
    rw [read_cons, if_neg (by omega), ih fun d hd => h d (by simp [hd])]

/-- The cells a write leaves are cells of the buffer or the one written. -/
theorem mem_write {m : Memory} {i : Nat} {v : Byte} {d : Host.Cell} (h : d ∈ write m i v) :
    d ∈ m ∨ (d = (i, v) ∧ v ≠ unlisted) := by
  induction m with
  | nil => by_cases hv : v = unlisted <;> simp_all [write]
  | cons c m ih =>
    unfold write at h
    split at h
    · split at h <;> simp_all
      tauto
    · split at h
      · split at h <;> simp_all
        tauto
      · rcases List.mem_cons.1 h with h | h
        · exact .inl (by simp [h])
        · exact (ih h).imp (List.mem_cons_of_mem _) id

/-- A write keeps the canonical form. -/
theorem wf_write {m : Memory} {i : Nat} (v : Byte) (h : wf m) (hi : i < 256) : wf (write m i v) := by
  refine ⟨?_, fun d hd => ?_⟩
  · induction m with
    | nil => by_cases hv : v = unlisted <;> simp [write, hv]
    | cons c m ih =>
      obtain ⟨hc, hm⟩ := List.pairwise_cons.1 h.1
      unfold write
      split
      · split
        · exact h.1
        · refine List.pairwise_cons.2 ⟨fun d hd => ?_, h.1⟩
          rcases List.mem_cons.1 hd with rfl | hd
          · assumption
          · have := hc d hd; simp; omega
      · split
        · split
          · exact hm
          · exact List.pairwise_cons.2 ⟨fun d hd => by have := hc d hd; simp; omega, hm⟩
        · refine List.pairwise_cons.2 ⟨fun d hd => ?_, ih (wf_tail h)⟩
          rcases mem_write hd with hd | ⟨rfl, -⟩
          · exact hc d hd
          · simp; omega
  · rcases mem_write hd with hd | ⟨rfl, hv⟩
    · exact h.2 d hd
    · exact ⟨hi, hv⟩

/-- A read after a write: the value written at its index, everything else as before. -/
theorem read_write {m : Memory} (i : Nat) (v : Byte) (j : Nat) (h : wf m) :
    read (write m i v) j = if j = i then v else read m j := by
  induction m with
  | nil =>
    by_cases hv : v = unlisted <;> by_cases hj : j = i <;> simp [write, hv, hj, read_cons]
    exact fun e => absurd e.symm hj
  | cons c m ih =>
    obtain ⟨hc, -⟩ := List.pairwise_cons.1 h.1
    unfold write
    split
    · split
      · split
        · subst_vars
          refine read_of_lt fun d hd => ?_
          rcases List.mem_cons.1 hd with rfl | hd
          · assumption
          · have := hc d hd; omega
        · rfl
      · simp only [read_cons, eq_comm]
    · split
      · rename_i hic
        split
        · split
          · subst_vars
            exact read_of_lt fun d hd => hc d hd
          · rw [read_cons, if_neg (by omega)]
        · simp only [read_cons]
          by_cases hj : j = i
          · simp [hj]
          · simp [hj, show ¬ i = j by omega, show ¬ c.1 = j by omega]
      · rw [read_cons, read_cons, ih (wf_tail h)]
        by_cases hj : j = i
        · rw [if_neg (by omega), if_pos hj, if_pos hj]
        · simp [hj]

/-- `MemWrite` keeps the canonical form. -/
theorem wf_writeBytes {m : Memory} {i : Nat} {v : List Byte} (h : wf m) (hi : i + v.length ≤ 256) : wf (writeBytes m i v) := by
  induction v generalizing m i with
  | nil => exact h
  | cons b v ih =>
    simp only [List.length_cons] at hi
    exact ih (wf_write b h (by omega)) (by omega)

/-- A read after `MemWrite`: the bytes written at their indices, everything else as before. -/
theorem read_writeBytes {m : Memory} {i : Nat} {v : List Byte} (j : Nat) (h : wf m) (hi : i + v.length ≤ 256) :
    read (writeBytes m i v) j = if i ≤ j then v[j - i]?.getD (read m j) else read m j := by
  induction v generalizing m i with
  | nil => simp [writeBytes]
  | cons b v ih =>
    simp only [List.length_cons] at hi
    rw [writeBytes, ih (wf_write b h (by omega)) (by omega), read_write _ _ _ h]
    rcases Nat.lt_trichotomy j i with hj | rfl | hj
    · rw [if_neg (by omega), if_neg (by omega), if_neg (by omega)]
    · simp
    · obtain ⟨k, rfl⟩ : ∃ k, j = i + 1 + k := ⟨j - (i + 1), by omega⟩
      simp [show i + 1 + k - (i + 1) = k by omega, show i + 1 + k - i = k + 1 by omega, show ¬ i + 1 + k = i by omega,
        show i ≤ i + 1 + k by omega]

@[simp] theorem length_readBytes (m : Memory) (i n : Nat) : (readBytes m i n).length = n := by simp [readBytes]

@[simp] theorem getElem?_readBytes (m : Memory) (i n j : Nat) (h : j < n) : (readBytes m i n)[j]? = some (read m (i + j)) := by
  simp [readBytes, h]

/-- In the canonical form, buffers that read alike are the same list. -/
theorem eq_of_read_eq {m m' : Memory} (h : wf m) (h' : wf m') (hr : ∀ i, read m i = read m' i) : m = m' := by
  induction m generalizing m' with
  | nil =>
    cases m' with
    | nil => rfl
    | cons c m' => exact absurd (by simpa [read_cons] using (hr c.1).symm) (h'.2 c (by simp)).2
  | cons c m ih =>
    cases m' with
    | nil => exact absurd (by simpa [read_cons] using hr c.1) (h.2 c (by simp)).2
    | cons c' m' =>
      obtain ⟨hc, -⟩ := List.pairwise_cons.1 h.1
      obtain ⟨hc', -⟩ := List.pairwise_cons.1 h'.1
      have low : ∀ {x y : Host.Cell} {k l : Memory}, wf (x :: k) → (∀ d ∈ l, y.1 < d.1) → x.1 < y.1 →
          read (x :: k) x.1 ≠ read (y :: l) x.1 := fun {x y k l} hx hy hlt e => by
        rw [read_of_lt (m := y :: l) (fun d hd => by
          rcases List.mem_cons.1 hd with rfl | hd
          · exact hlt
          · exact hlt.trans (hy d hd))] at e
        exact (hx.2 x (by simp)).2 (by simpa [read_cons] using e)
      have h1 : c.1 = c'.1 := by
        rcases Nat.lt_trichotomy c.1 c'.1 with hlt | he | hlt
        · exact absurd (hr c.1) (low h hc' hlt)
        · exact he
        · exact absurd (hr c'.1).symm (low h' hc hlt)
      have h2 : c.2 = c'.2 := by simpa [read_cons, h1] using hr c.1
      rw [Prod.ext h1 h2, ih (wf_tail h) (wf_tail h')]
      intro i
      by_cases hi : c.1 < i
      · have := hr i
        rwa [read_cons, read_cons, if_neg (by omega), if_neg (by omega)] at this
      · rw [read_of_lt fun d hd => by have := hc d hd; omega, read_of_lt fun d hd => by have := hc' d hd; omega]

end Sys2Proof.Machine.Memory
end

