-- ==== Sys2Proof/Laws/State.lean ====
section
/-! SUPPORT. One lemma per field per update of the state, and the two ways an operation ends. -/

namespace Sys2Proof.Machine

@[simp] theorem setWp_wp (s : State) (p : Packet) : (s.setWp p).wp = p := rfl
@[simp] theorem setWp_q (s : State) (p : Packet) : (s.setWp p).q = s.q := rfl
@[simp] theorem setWp_params (s : State) (p : Packet) : (s.setWp p).params = s.params := rfl
@[simp] theorem setWp_operands (s : State) (p : Packet) : (s.setWp p).operands = s.operands := rfl
@[simp] theorem setWp_pending (s : State) (p : Packet) : (s.setWp p).pending = s.pending := rfl
@[simp] theorem setWp_results (s : State) (p : Packet) : (s.setWp p).results = s.results := rfl

@[simp] theorem setQ_wp (s : State) (q : Queue) : (s.setQ q).wp = s.wp := rfl
@[simp] theorem setQ_q (s : State) (q : Queue) : (s.setQ q).q = q := rfl
@[simp] theorem setQ_params (s : State) (q : Queue) : (s.setQ q).params = s.params := rfl
@[simp] theorem setQ_operands (s : State) (q : Queue) : (s.setQ q).operands = s.operands := rfl
@[simp] theorem setQ_pending (s : State) (q : Queue) : (s.setQ q).pending = s.pending := rfl
@[simp] theorem setQ_results (s : State) (q : Queue) : (s.setQ q).results = s.results := rfl

@[simp] theorem setResults_wp (s : State) (r : Results) : (s.setResults r).wp = s.wp := rfl
@[simp] theorem setResults_q (s : State) (r : Results) : (s.setResults r).q = s.q := rfl
@[simp] theorem setResults_params (s : State) (r : Results) : (s.setResults r).params = s.params := rfl
@[simp] theorem setResults_operands (s : State) (r : Results) : (s.setResults r).operands = s.operands := rfl
@[simp] theorem setResults_pending (s : State) (r : Results) : (s.setResults r).pending = s.pending := rfl
@[simp] theorem setResults_results (s : State) (r : Results) : (s.setResults r).results = r := rfl

@[simp] theorem take_wp (s : State) (o : Operands) (cs : List Command) : (s.take o cs).wp = s.wp := rfl
@[simp] theorem take_q (s : State) (o : Operands) (cs : List Command) : (s.take o cs).q = s.q := rfl
@[simp] theorem take_params (s : State) (o : Operands) (cs : List Command) : (s.take o cs).params = s.params := rfl
@[simp] theorem take_operands (s : State) (o : Operands) (cs : List Command) : (s.take o cs).operands = o := rfl
@[simp] theorem take_pending (s : State) (o : Operands) (cs : List Command) : (s.take o cs).pending = cs := rfl
@[simp] theorem take_results (s : State) (o : Operands) (cs : List Command) : (s.take o cs).results = s.results := rfl

@[simp] theorem done_status : Results.done.status = some .ok := rfl
@[simp] theorem address_status (a : Address) : (Results.address a).status = some .ok := rfl
@[simp] theorem decoded_status (cs : DecodedCallsign) (n : BitVec 4) (e : Bool) : (Results.decoded cs n e).status = some .ok := rfl
@[simp] theorem count_status (n : Nat) : (Results.count n).status = some .ok := rfl
@[simp] theorem framed_status (f : List Byte) : (Results.framed f).status = some .ok := rfl
@[simp] theorem failed_status (c : Condition) : (Results.failed c).status = some (.raised c) := rfl

/-- Everything `complete` can do. -/
theorem complete_eq (s : State) (r : Results) : complete s r = .next { s with results := r } := rfl

/-- Everything `raise` can do (60_exceptions.md R141). -/
theorem raise_eq (s : State) (c : Condition) : raise s c = .next { s with results := { status := some (.raised c) } } := rfl

end Sys2Proof.Machine
end

