-- ==== Sys2Proof/Laws/Frame.lean ====
section
/-! SUPPORT. The frame by its blocks: its length and its bytes by offset, and everything BUILD_FRAME does. -/

namespace Sys2Proof.Machine

theorem length_flatBlocks (l : List Address) : (l.flatMap (·.toList)).length = 7 * l.length := by
  induction l with
  | nil => rfl
  | cons a l ih =>
    simp [List.flatMap_cons, ih]
    omega

/-- Byte `k` of block `i` stands at offset `7*i + k` (30_encoding.md R61). -/
theorem getElem?_flatBlocks (l : List Address) (i k : Nat) (hk : k < 7) :
    (l.flatMap (·.toList))[7 * i + k]? = (l[i]?).map (fun a => a[k]) := by
  induction l generalizing i with
  | nil => rfl
  | cons a l ih =>
    cases i with
    | zero =>
      rw [List.flatMap_cons, List.getElem?_append_left (by simp; omega)]
      simp [hk]
    | succ i =>
      rw [List.flatMap_cons, List.getElem?_append_right (by simp; omega)]
      simp only [Vector.length_toList, List.getElem?_cons_succ]
      rw [show 7 * (i + 1) + k - 7 = 7 * i + k by omega, ih i]

namespace Packet

/-- The blocks of a frame before its payload: destination, source, relays. -/
def blocks (p : Packet) : List Address := p.dst :: withExt p.src (decide (p.ndigi.val = 0)) :: p.relayBlocks

theorem frameBody_eq (p : Packet) :
    p.frameBody = p.blocks.flatMap (·.toList) ++ Memory.readBytes p.payload 0 p.plen := by
  simp [frameBody, blocks, List.flatMap_cons, List.append_assoc]

@[simp] theorem length_relayBlocks (p : Packet) : p.relayBlocks.length = p.ndigi.val := by simp [relayBlocks]

@[simp] theorem length_blocks (p : Packet) : p.blocks.length = p.ndigi.val + 2 := by simp [blocks]

@[simp] theorem length_frameBody (p : Packet) : p.frameBody.length = 14 + 7 * p.ndigi.val + p.plen.val := by
  rw [frameBody_eq, List.length_append, length_flatBlocks]
  simp
  omega

theorem frameLength_eq (p : Packet) : p.frameLength = 16 + 7 * p.ndigi.val + p.plen.val := by
  simp [frameLength]
  omega

@[simp] theorem length_withChecksum (b : List Byte) : (withChecksum b).length = b.length + 2 := by simp [withChecksum]

theorem getElem?_withChecksum {b : List Byte} {j : Nat} (h : j < b.length) : (withChecksum b)[j]? = b[j]? := by
  simp [withChecksum, List.getElem?_append_left h]

@[simp] theorem take_withChecksum (b : List Byte) : (withChecksum b).take b.length = b := by simp [withChecksum]

/-- Byte `k` of block `i` of the body. -/
theorem getElem?_frameBody_block (p : Packet) (i k : Nat) (hk : k < 7) (hi : i < p.ndigi.val + 2) :
    p.frameBody[7 * i + k]? = (p.blocks[i]?).map (fun a => a[k]) := by
  rw [frameBody_eq, List.getElem?_append_left (by rw [length_flatBlocks]; simp; omega), getElem?_flatBlocks _ _ _ hk]

/-- Relay block `i` is the stored relay with its bit set on the last only (42_frame_builder.md R112 step 3). -/
theorem getElem?_relayBlocks (p : Packet) (i : Fin 8) (h : i.val < p.ndigi.val) :
    p.relayBlocks[i.val]? = some (withExt p.digi[i] (decide (i.val + 1 = p.ndigi.val))) := by
  simp [relayBlocks, h]
  congr 1
  simp
  omega

/-- Payload byte `j` of the body. -/
theorem getElem?_frameBody_payload (p : Packet) (j : Nat) (hj : j < p.plen.val) :
    p.frameBody[14 + 7 * p.ndigi.val + j]? = some (p.payload.read j) := by
  rw [frameBody_eq, List.getElem?_append_right (by rw [length_flatBlocks]; simp; omega), length_flatBlocks,
    Memory.getElem?_readBytes _ _ _ _ (by simp; omega)]
  congr 2
  simp
  omega

end Packet

/-- Everything BUILD_FRAME does on a packet whose frame fits. -/
theorem exec_buildFrame_ok {s : State} (h : s.wp.frameLength ≤ s.params.maxFrameLen) :
    exec (.buildFrame false) s = .next (s.setResults (.framed (Packet.withChecksum s.wp.frameBody))) := by
  simp only [exec, execBuildFrame, buildFrame, packetOperand, Bool.false_eq_true, if_false]
  rw [if_neg (by omega)]
  rfl

/-- Everything BUILD_FRAME does on a packet whose frame does not fit (42_frame_builder.md R113). -/
theorem exec_buildFrame_long {s : State} (h : s.params.maxFrameLen < s.wp.frameLength) :
    exec (.buildFrame false) s = .next (s.setResults (.failed .frameTooLong)) := by
  simp only [exec, execBuildFrame, buildFrame, packetOperand, Bool.false_eq_true, if_false]
  rw [if_pos (by omega)]
  rfl

end Sys2Proof.Machine
end

