-- ==== Sys2Proof/Laws/Packet.lean ====
section
/-! SUPPORT. The relay slots through ADD_DIGIPEATER, and the callsign operand as the assembler drives it. -/

namespace Sys2Proof.Machine

/-- The six lanes and the 4-bit length carry every character an encoding looks at, of a callsign of any length. -/
theorem padChar_lanes (cs : Callsign) (i : Nat) (hi : i < 6) :
    padChar ((csLanesOf (some cs)).toList.take (min (csLenOf (some cs)) 6)) i = padChar cs i := by
  unfold padChar
  congr 1
  rw [List.getElem?_take]
  split
  · rename_i h
    simp [csLenOf] at h
    simp [csLanesOf]
    interval_cases i <;> simp [h]
  · rename_i h
    simp [csLenOf] at h
    rw [List.getElem?_eq_none]
    omega

/-- The address a command encodes from its ports is the one its line's callsign encodes to. -/
theorem encodeAddress_lanes (cs : Callsign) (ssid : Byte) :
    encodeAddress ((csLanesOf (some cs)).toList.take (min (csLenOf (some cs)) 6)) ssid = encodeAddress cs ssid :=
  encodeAddress_congr ssid (padChar_lanes cs)

namespace Packet

/-- Slot `j` after the prior last relay lost its chain-extension bit. -/
theorem getElem_clearPriorExt (digi : Vector Address 8) (n : Nat) (hn : n ≤ 8) (j : Fin 8) :
    (clearPriorExt digi n)[j] = if j.val + 1 = n then clearExt digi[j] else digi[j] := by
  unfold clearPriorExt
  split
  · simp [Vector.getElem_set]
    split <;> rename_i h1
    · rw [if_pos (by omega)]
      congr
    · rw [if_neg (by omega)]
  · rw [if_neg (by omega)]

/-- `add_digipeater` with room for one more relay. -/
theorem addDigipeater_ok (p : Packet) (cs : Callsign) (ssid : Byte) (h : p.ndigi.val < 8) :
    p.addDigipeater (some cs) ssid =
      .ok ({ p with digi := (clearPriorExt p.digi p.ndigi).set p.ndigi (setExt (encodeAddress cs ssid))
                    ndigi := ⟨p.ndigi + 1, by omega⟩ }, p.ndigi + 1) := by
  simp only [addDigipeater]
  rw [dif_neg (by simp; omega)]

/-- `add_digipeater` with eight relays. -/
theorem addDigipeater_full (p : Packet) (cs : Callsign) (ssid : Byte) (h : p.ndigi.val = 8) :
    p.addDigipeater (some cs) ssid = .error .relayChainFull := by
  simp only [addDigipeater]
  rw [dif_pos (by simpa using h)]

end Packet

end Sys2Proof.Machine
end

