-- ==== Sys2Proof/Laws/PerInstr.lean ====
section
/-! SUPPORT. Per-instruction family `RowWord`: every operation's word has the `op` of its row and no reserved bit (30_encoding.md R77). -/

namespace Sys2Proof.Laws.RowWord

/-- The encoder's word, under the row mask, is the operation's `op`. -/
def Statement (i : Instr) : Prop := encode i &&& rowMask = i.op.setWidth 32

theorem encodeAddress (null : Bool) (ssid : Byte) (csLen : Nat) : Statement (.encodeAddress null ssid csLen) := packWord_row ..
theorem decodeAddress : Statement .decodeAddress := packWord_row ..
theorem pktInit : Statement .pktInit := packWord_row ..
theorem setSource (null : Bool) (ssid : Byte) (csLen : Nat) : Statement (.setSource null ssid csLen) := packWord_row ..
theorem setDestination (null : Bool) (ssid : Byte) (csLen : Nat) : Statement (.setDestination null ssid csLen) := packWord_row ..
theorem addDigipeater (null : Bool) (ssid : Byte) (csLen : Nat) : Statement (.addDigipeater null ssid csLen) := packWord_row ..
theorem getSource : Statement .getSource := packWord_row ..
theorem getDestination : Statement .getDestination := packWord_row ..
theorem getDigipeater (index : Nat) : Statement (.getDigipeater index) := packWord_row ..
theorem setPayload : Statement .setPayload := packWord_row ..
theorem buildFrame (null : Bool) : Statement (.buildFrame null) := packWord_row ..
theorem qInit : Statement .qInit := packWord_row ..
theorem qPush : Statement .qPush := packWord_row ..
theorem qPop : Statement .qPop := packWord_row ..

end Sys2Proof.Laws.RowWord
end

