-- ==== Sys2Proof/Laws/Queue.lean ====
section
/-! SUPPORT. The queue's indices and its list view (10_state.md R31, R32). -/

namespace Sys2Proof.Machine

@[simp] theorem indexValue_none : indexValue none = -1 := rfl

@[simp] theorem indexValue_some (i : Fin 10) : indexValue (some i) = i.val := rfl

/-- From -1 the next slot is 0. -/
@[simp] theorem nextSlot_none : nextSlot none = 0 := rfl

@[simp] theorem nextSlot_some_val (i : Fin 10) : (nextSlot (some i)).val = (i.val + 1) % 10 := by
  simp [nextSlot]
  omega

namespace Queue

theorem isEmpty_iff (q : Queue) : q.isEmpty = true ↔ q.front = none := by
  cases h : q.front <;> simp [isEmpty, h]

theorem count_none {q : Queue} (h : q.front = none) : q.count = 0 := by simp [count, isEmpty, h]

theorem count_some {q : Queue} {f r : Fin 10} (hf : q.front = some f) (hr : q.rear = some r) :
    q.count = (r.val + 10 - f.val) % 10 + 1 := by
  simp [count, isEmpty, hf, hr]
  omega

@[simp] theorem length_contents (q : Queue) : q.contents.length = q.count := by
  unfold contents
  split
  · rw [count_none ‹_›, List.length_nil]
  · simp

theorem contents_none {q : Queue} (h : q.front = none) : q.contents = [] := by simp [contents, h]

theorem getElem_contents {q : Queue} {f : Fin 10} (hf : q.front = some f) (k : Nat) (hk : k < q.count) :
    q.contents[k]? = some (q.slot[(f.val + k) % 10]'(Nat.mod_lt _ (by decide))) := by
  simp [contents, hf, hk]

/-- The full test, on the two indices. -/
theorem isFull_some {q : Queue} {f r : Fin 10} (hf : q.front = some f) (hr : q.rear = some r) :
    q.isFull = true ↔ q.count = 10 := by
  rw [count_some hf hr]
  simp [isFull, hf, hr]
  omega

theorem not_isFull_none {q : Queue} (hf : q.front = none) (hr : q.rear = none) : q.isFull = false := by
  simp [isFull, hf, hr]

/-- The full test holds exactly when ten packets are resident (43_packet_queue.md R125). -/
theorem isFull_iff_count {q : Queue} (h : q.front = none ↔ q.rear = none) : q.isFull = true ↔ q.count = 10 := by
  cases hf : q.front with
  | none =>
    rw [not_isFull_none hf (h.1 hf), count_none hf]
    simp
  | some f =>
    cases hr : q.rear with
    | none => simp [h.2 hr] at hf
    | some r => exact isFull_some hf hr

theorem count_le (q : Queue) : q.count ≤ 10 := by
  unfold count
  split
  · omega
  · simp
    omega

@[simp] theorem pushed_rear (q : Queue) (p : Packet) : (q.pushed p).rear = some (nextSlot q.rear) := rfl

theorem pushed_front (q : Queue) (p : Packet) : (q.pushed p).front = if q.isEmpty then some 0 else q.front := rfl

@[simp] theorem pushed_slot (q : Queue) (p : Packet) : (q.pushed p).slot = q.slot.set (nextSlot q.rear) (some p) := rfl

@[simp] theorem popped_slot (q : Queue) : q.popped.slot = q.slot := by
  unfold popped
  split <;> rfl

/-- A push leaves both indices valid. -/
theorem pushed_sentinel (q : Queue) (p : Packet) : (q.pushed p).front ≠ none := by
  rw [pushed_front]
  cases h : q.isEmpty
  · simpa using (isEmpty_iff q).not.1 (by simp [h])
  · simp

/-- A pop of a queue with a resident packet leaves both indices valid or both -1. -/
theorem popped_sentinel {q : Queue} (h : q.rear ≠ none) : q.popped.front = none ↔ q.popped.rear = none := by
  unfold popped
  split
  · simp
  · simp [h]

/-- A push onto a queue that is not full appends the packet (43_packet_queue.md R124; 10_state.md R32). -/
theorem contents_pushed {q : Queue} (p : Packet) (h : q.front = none ↔ q.rear = none) (hn : q.isFull = false) :
    (q.pushed p).contents = q.contents ++ [some p] := by
  cases hf : q.front with
  | none =>
    have hr := h.1 hf
    have e : (q.pushed p).front = some 0 := by simp [pushed_front, isEmpty_iff, hf]
    have hc : (q.pushed p).count = 1 := by
      rw [count_some e (pushed_rear q p), hr]
      rfl
    simp [contents, hf, hr, e, hc]
  | some f =>
    cases hr : q.rear with
    | none => simp [h.2 hr] at hf
    | some r =>
      have hc := count_some hf hr
      have hlt : q.count < 10 := by
        have h10 := (isFull_some hf hr).not.1 (by simp [hn])
        have := count_le q
        omega
      have e : (q.pushed p).front = some f := by simp [pushed_front, isEmpty_iff, hf]
      have e' : (q.pushed p).rear = some (nextSlot (some r)) := by simp [hr]
      have hc' : (q.pushed p).count = q.count + 1 := by
        rw [count_some e e', hc, nextSlot_some_val]
        omega
      apply List.ext_getElem?
      intro k
      rcases Nat.lt_trichotomy k q.count with hk | rfl | hk
      · rw [List.getElem?_append_left (by simpa using hk), getElem_contents hf k hk, getElem_contents e k (by omega)]
        simp only [pushed_slot, hr]
        rw [Vector.getElem_set_ne]
        rw [nextSlot_some_val]
        omega
      · rw [getElem_contents e _ (by omega), List.getElem?_append_right (by simp)]
        have : (f.val + q.count) % 10 = (nextSlot (some r)).val := by
          rw [nextSlot_some_val, hc]
          omega
        simp [this, hr]
      · rw [List.getElem?_eq_none (by rw [length_contents, hc']; omega), List.getElem?_eq_none (by simp; omega)]

/-- A pop of a resident packet leaves the rest of the list (43_packet_queue.md R127; 10_state.md R32). -/
theorem contents_popped {q : Queue} {f r : Fin 10} (hf : q.front = some f) (hr : q.rear = some r) :
    q.contents = q.slot[f] :: q.popped.contents := by
  have hc := count_some hf hr
  unfold popped
  by_cases h : f = r
  · subst h
    have h1 : q.count = 1 := by rw [hc]; omega
    simp [contents, hf, hr, h1, Nat.mod_eq_of_lt f.isLt]
  · rw [if_neg (by simpa [hf, hr] using h)]
    have hfr : f.val ≠ r.val := fun e => h (Fin.ext e)
    have hc' : Queue.count { q with front := some (nextSlot q.front) } + 1 = q.count := by
      have e : Queue.count { q with front := some (nextSlot q.front) } = (r.val + 10 - (nextSlot q.front).val) % 10 + 1 :=
        count_some (q := { q with front := some (nextSlot q.front) }) rfl hr
      rw [e, hc, hf, nextSlot_some_val]
      omega
    apply List.ext_getElem?
    intro k
    by_cases hk : k < q.count
    · rw [getElem_contents hf k hk]
      cases k with
      | zero => simp [Nat.mod_eq_of_lt f.isLt]
      | succ k =>
        rw [List.getElem?_cons_succ, getElem_contents (q := { q with front := some (nextSlot q.front) }) rfl k (by omega)]
        have : (f.val + (k + 1)) % 10 = ((nextSlot q.front).val + k) % 10 := by
          rw [hf, nextSlot_some_val]
          omega
        simp [this]
    · rw [List.getElem?_eq_none (by simpa using hk), List.getElem?_eq_none (by simp; omega)]

end Queue

/-- Everything Q_PUSH does on a full queue. -/
theorem exec_qPush_full {s : State} (h : s.q.isFull = true) : exec .qPush s = .next (s.setResults (.failed .queueFull)) := by
  simp only [exec, execQPush, Queue.push, h, if_true]
  rfl

/-- Everything Q_PUSH does on a queue that is not full. -/
theorem exec_qPush_ok {s : State} (h : s.q.isFull = false) :
    exec .qPush s = .next ((s.setQ (s.q.pushed s.wp)).setResults .done) := by
  simp only [exec, execQPush, Queue.push, h, Bool.false_eq_true, if_false]
  rfl

/-- Everything Q_POP does on an empty queue. -/
theorem exec_qPop_empty {s : State} (h : s.q.front = none) : exec .qPop s = .next (s.setResults (.failed .queueEmpty)) := by
  simp only [exec, execQPop, Queue.pop, h]
  rfl

/-- Everything Q_POP does on a queue with a resident packet. -/
theorem exec_qPop_ok {s : State} {f : Fin 10} (h : s.q.front = some f) :
    exec .qPop s = .next (((s.setWp (s.q.readSlot f)).setQ s.q.popped).setResults .done) := by
  simp only [exec, execQPop, Queue.pop, h]
  rfl

end Sys2Proof.Machine
end

