-- ==== Sys2Proof/Laws/Step.lean ====
section
/-! SUPPORT. A step by the word it takes, runs of several steps, and a row's words. -/

namespace Sys2Proof.Machine

theorem step_nil {s : State} (h : s.pending = []) : step s = .next s := by simp [step, nextCommand, h]

/-- A step on a command that decodes runs its operation. -/
theorem step_ok {s : State} {c : Command} {rest : List Command} {i : Instr} (h : s.pending = c :: rest)
    (hd : decode c.word = .ok i) : step s = exec i (s.take c.operands rest) := by
  simp [step, nextCommand, h, issue, hd]

/-- A step on a word that is no command raises IllegalCommand. -/
theorem step_error {s : State} {c : Command} {rest : List Command} {e : DecodeError} (h : s.pending = c :: rest)
    (hd : decode c.word = .error e) : step s = .next ((s.take c.operands rest).setResults (.failed .illegalCommand)) := by
  simp only [step, nextCommand, h, issue, hd]
  rfl

@[simp] theorem run_zero (s : State) : run 0 s = .next s := rfl

theorem run_succ {s t : State} (n : Nat) (h : step s = .next t) : run (n + 1) s = run n t := by
  rw [run, h]

/-- A run splits where a shorter run ends. -/
theorem run_add {s t : State} {n : Nat} (m : Nat) (h : run n s = .next t) : run (n + m) s = run m t := by
  induction n generalizing s with
  | zero =>
    cases h
    rw [Nat.zero_add]
  | succ n ih =>
    rw [Nat.add_right_comm]
    rw [run] at h ⊢
    cases hs : step s with
    | next u =>
      rw [hs] at h
      exact ih h
    | fault f =>
      rw [hs] at h
      cases h
    | refused r =>
      rw [hs] at h
      cases h

theorem popsDuring_succ {s t : State} (n : Nat) (h : step s = .next t) :
    popsDuring (n + 1) s = (if poppedBy s t then 1 else 0) + popsDuring n t := by
  rw [popsDuring, h]

/-- No operation reads the result ports. -/
theorem exec_setResults (i : Instr) (s : State) (r : Results) : exec i (s.setResults r) = exec i s := by cases i <;> rfl

end Sys2Proof.Machine
end

