-- ==== Sys2Proof/Tests/Slice0.lean ====
section
/-! SUPPORT. The model's own tests. Expected values are the spec's: 95_test_vectors.md by the id of each vector, 30_encoding.md R68 to R77
for command words. The last part shows, for each obligation with hypotheses, concrete inputs that meet them. -/

open Sys2Proof Sys2Proof.Machine

namespace Sys2Proof.Tests

/-! ## States -/

/-- The state after one host line. -/
def after (l : Line) (s : State) : State :=
  match step { s with pending := [l.assemble] } with
  | .next t => t
  | .fault _ => s
  | .refused _ => s

/-- The state after one command word with idle ports. -/
def afterWord (w : CommandWord) (s : State) : State :=
  match step { s with pending := [{ word := w, operands := idleOperands }] } with
  | .next t => t
  | .fault _ => s
  | .refused _ => s

def withWp (p : Packet) : State := { State.reset with wp := p }

/-- "VU3EM", 1 (V-AC1). -/
def vu3em : Address := #v[0xAC, 0xAA, 0x66, 0x8A, 0x9A, 0x40, 0x62]

/-- "CQ", 0 (V-AC2). -/
def cq : Address := #v[0x86, 0xA2, 0x40, 0x40, 0x40, 0x40, 0x60]

def fresh : Address := resetAddress 0x40

/-- V-PM4: one relay. -/
def oneRelay : Packet :=
  { resetPacket 0x40 with
    digi := #v[#v[0xAE, 0x92, 0x88, 0x8A, 0x62, 0x40, 0x63], fresh, fresh, fresh, fresh, fresh, fresh, fresh], ndigi := 1 }

/-- V-PM5: two relays, here with the payload of V-PM23, whose tail is stale. -/
def twoRelays : Packet :=
  { resetPacket 0x40 with
    digi := #v[#v[0xAE, 0x92, 0x88, 0x8A, 0x62, 0x40, 0x62], #v[0xAE, 0x92, 0x88, 0x8A, 0x64, 0x40, 0x65], fresh, fresh, fresh, fresh,
      fresh, fresh]
    ndigi := 2
    payload := [(0, 0x78), (1, 0x79), (2, 0x43), (3, 0x44), (4, 0x45), (5, 0x46), (6, 0x47), (7, 0x48)], plen := 2 }

/-- The end state of P2: eight relays. -/
def eightRelays : Packet :=
  { resetPacket 0x40 with
    digi := #v[#v[0xA4, 0x98, 0xB2, 0x62, 0x40, 0x40, 0x62], #v[0xA4, 0x98, 0xB2, 0x64, 0x40, 0x40, 0x64],
      #v[0xA4, 0x98, 0xB2, 0x66, 0x40, 0x40, 0x66], #v[0xA4, 0x98, 0xB2, 0x68, 0x40, 0x40, 0x68],
      #v[0xA4, 0x98, 0xB2, 0x6A, 0x40, 0x40, 0x6A], #v[0xA4, 0x98, 0xB2, 0x6C, 0x40, 0x40, 0x6C],
      #v[0xA4, 0x98, 0xB2, 0x6E, 0x40, 0x40, 0x6E], #v[0xA4, 0x98, 0xB2, 0x70, 0x40, 0x40, 0x71]]
    ndigi := 8 }

/-- V-FB1: the source's packet. -/
def sourcePacket : Packet :=
  { resetPacket 0x40 with
    src := vu3em, dst := cq
    digi := #v[#v[0x88, 0x92, 0x8E, 0x92, 0x62, 0x40, 0x63], fresh, fresh, fresh, fresh, fresh, fresh, fresh], ndigi := 1
    payload := [(0, 0x54), (1, 0x48), (2, 0x49), (3, 0x53), (4, 0x20), (5, 0x49), (6, 0x53), (7, 0x20), (8, 0x50), (9, 0x41),
      (10, 0x43), (11, 0x4B), (12, 0x45), (13, 0x54), (14, 0x20), (15, 0x30)]
    plen := 16 }

/-- A packet told from others by its payload length. -/
def numbered (i : Fin 10) : Packet := { resetPacket 0x40 with plen := ⟨i.val, by omega⟩ }

/-- A queue with given indices whose slots hold numbered packets. -/
def queued (f r : QIndex) : State :=
  { State.reset with
    q := { slot := #v[some (numbered 0), some (numbered 1), some (numbered 2), some (numbered 3), some (numbered 4), some (numbered 5),
             some (numbered 6), some (numbered 7), some (numbered 8), some (numbered 9)]
           front := f, rear := r } }

/-! ## Ill-formed operations -/

theorem test_wf_encodeAddress : Instr.wellFormed (.encodeAddress false 0 16) = false := by decide
theorem test_wf_setSource : Instr.wellFormed (.setSource false 0 16) = false := by decide
theorem test_wf_setDestination : Instr.wellFormed (.setDestination false 0 16) = false := by decide
theorem test_wf_addDigipeater : Instr.wellFormed (.addDigipeater false 0 16) = false := by decide
theorem test_wf_getDigipeater : Instr.wellFormed (.getDigipeater 16) = false := by decide
theorem test_wf_payload_length : ({ idleOperands with plIn := List.replicate 65536 0 } : Operands).wellFormed = false := by
  rw [Operands.wellFormed, decide_eq_false_iff_not, List.length_replicate]
  omega

/-! ## Command words, one per operation, from 95_test_vectors.md -/

theorem test_decode_encodeAddress : decode 0x00801F01 = .ok (.encodeAddress false 31 8) := by decide
theorem test_decode_encodeAddress_null : decode 0x00000511 = .ok (.encodeAddress true 5 0) := by decide
theorem test_decode_decodeAddress : decode 0x00000002 = .ok .decodeAddress := by decide
theorem test_decode_pktInit : decode 0x00000003 = .ok .pktInit := by decide
theorem test_decode_setSource : decode 0x00500104 = .ok (.setSource false 1 5) := by decide
theorem test_decode_setDestination : decode 0x00200005 = .ok (.setDestination false 0 2) := by decide
theorem test_decode_addDigipeater : decode 0x00400906 = .ok (.addDigipeater false 9 4) := by decide
theorem test_decode_getSource : decode 0x00000007 = .ok .getSource := by decide
theorem test_decode_getDestination : decode 0x00000008 = .ok .getDestination := by decide
theorem test_decode_getDigipeater : decode 0x000F0009 = .ok (.getDigipeater 15) := by decide
theorem test_decode_setPayload : decode 0x0000000A = .ok .setPayload := by decide
theorem test_decode_buildFrame : decode 0x0000000B = .ok (.buildFrame false) := by decide
theorem test_decode_buildFrame_null : decode 0x0000001B = .ok (.buildFrame true) := by decide
theorem test_decode_qInit : decode 0x0000000C = .ok .qInit := by decide
theorem test_decode_qPush : decode 0x0000000D = .ok .qPush := by decide
theorem test_decode_qPop : decode 0x0000000E = .ok .qPop := by decide

/-- V-X1 to V-X5. -/
theorem test_decode_illegal :
    decode 0x00000000 = .error .reservedOp ∧ decode 0x0000000F = .error .reservedOp ∧ decode 0x00000023 = .error .reservedBits ∧
      decode 0x01000003 = .error .reservedBits ∧ decode 0x00000083 = .error .reservedBits := by decide

/-- V-X6 to V-X8: unused fields are ignored. -/
theorem test_decode_unused : decode 0x00000013 = .ok .pktInit ∧ decode 0x00FFFF0C = .ok .qInit ∧ decode 0x0000001D = .ok .qPush := by
  decide

/-- The encoder gives the spec's words. -/
theorem test_encode :
    encode (.encodeAddress false 15 6) = 0x00600F01 ∧ encode (.setSource true 5 0) = 0x00000514 ∧
      encode (.getDigipeater 7) = 0x00070009 ∧ encode (.buildFrame true) = 0x0000001B := by decide

theorem test_decodeTableWord : decodeTableWord 32 0x00500106 = some (.addDigipeater false 1 5) ∧ decodeTableWord 32 0xF = none := by decide

/-- The next step runs the word placed, as the first command after reset. -/
theorem test_withFetchWord :
    step (State.reset.withFetchWord 32 0x0000000D) = exec .qPush { State.reset with pending := [] } := by rfl

/-! ## Memory -/

theorem test_memory_write : Memory.write [(1, 0x11), (3, 0x33)] 2 0x22 = [(1, 0x11), (2, 0x22), (3, 0x33)] := by decide
theorem test_memory_write_zero : Memory.write [(1, 0x11), (3, 0x33)] 3 0x00 = [(1, 0x11)] := by decide
theorem test_reset_memory : Memory.wf State.reset.wp.payload := by decide

/-! ## Steps -/

/-- V-AC5: truncation to six characters and masking of the SSID. -/
theorem test_encodeAddress :
    (after (.encodeAddress (some [0x41, 0x42, 0x43, 0x44, 0x45, 0x46, 0x47, 0x48]) 31) State.reset).results =
      { status := some .ok, addrOut := some #v[0x82, 0x84, 0x86, 0x88, 0x8A, 0x8C, 0x7E] } := by decide

/-- V-AC10: bit 7 of a character is lost, the rest is padded. -/
theorem test_encodeAddress_high_bit :
    (after (.encodeAddress (some [0xE9]) 3) State.reset).results.addrOut = some #v[0xD2, 0x40, 0x40, 0x40, 0x40, 0x40, 0x66] := by
  decide

/-- V-AD5: every input bit set. -/
theorem test_decodeAddress :
    (after (.decodeAddress #v[0xFF, 0xFF, 0xFF, 0xFF, 0xFF, 0xFF, 0xFF]) State.reset).results =
      { status := some .ok, csOut := some #v[0x7F, 0x7F, 0x7F, 0x7F, 0x7F, 0x7F], ssidOut := some 15, extOut := some true } := by decide

/-- V-AD1. -/
theorem test_decodeAddress_vu3em :
    (after (.decodeAddress vu3em) State.reset).results =
      { status := some .ok, csOut := some #v[0x56, 0x55, 0x33, 0x45, 0x4D, 0x20], ssidOut := some 1, extOut := some false } := by decide

/-- V-PM1. -/
theorem test_pktInit : (after .pktInit (withWp eightRelays)).wp = State.reset.wp := by decide

/-- V-PM2. -/
theorem test_setSource :
    (after (.setSource (some [0x56, 0x55, 0x33, 0x45, 0x4D]) 1) State.reset).wp = { State.reset.wp with src := vu3em } := by decide

/-- V-PM6: the silent no-op. -/
theorem test_setSource_null :
    (after (.setSource none 5) (withWp sourcePacket)).wp = sourcePacket ∧
      (after (.setSource none 5) (withWp sourcePacket)).results = okResults := by decide

/-- V-PM3. -/
theorem test_setDestination :
    (after (.setDestination (some [0x43, 0x51]) 0) State.reset).wp = { State.reset.wp with dst := cq } := by decide

/-- V-PM5: the prior last relay loses its bit. -/
theorem test_addDigipeater :
    (after (.addDigipeater (some [0x57, 0x49, 0x44, 0x45, 0x32]) 2) (withWp oneRelay)).wp.digi = twoRelays.digi ∧
      (after (.addDigipeater (some [0x57, 0x49, 0x44, 0x45, 0x32]) 2) (withWp oneRelay)).results =
        { status := some .ok, countOut := some 2 } := by decide

/-- V-PM9 and V-PM10: the full chain, and the absent callsign before it. -/
theorem test_addDigipeater_full :
    (after (.addDigipeater (some [0x52, 0x4C, 0x59, 0x39]) 9) (withWp eightRelays)).results = failedResults .relayChainFull ∧
      (after (.addDigipeater none 0) (withWp eightRelays)).results = failedResults .invalidArgument := by decide

/-- V-PM11. -/
theorem test_getSource :
    (after .getSource (withWp sourcePacket)).results =
      { status := some .ok, csOut := some #v[0x56, 0x55, 0x33, 0x45, 0x4D, 0x20], ssidOut := some 1, extOut := some false } := by decide

/-- V-PM13. -/
theorem test_getDestination :
    (after .getDestination (withWp sourcePacket)).results =
      { status := some .ok, csOut := some #v[0x43, 0x51, 0x20, 0x20, 0x20, 0x20], ssidOut := some 0, extOut := some false } := by decide

/-- V-PM15 and V-PM16: the last relay, and the index equal to the count. -/
theorem test_getDigipeater :
    (after (.getDigipeater 1) (withWp twoRelays)).results =
        { status := some .ok, csOut := some #v[0x57, 0x49, 0x44, 0x45, 0x32, 0x20], ssidOut := some 2, extOut := some true } ∧
      (after (.getDigipeater 2) (withWp twoRelays)).results = failedResults .indexOutOfRange := by decide

/-- V-PM16 with the parameter false: the fresh slot; and index 8 of eight relays still fails (P2 step 12). -/
theorem test_getDigipeater_eqCountAllowed :
    (after (.getDigipeater 2)
        { withWp twoRelays with params := { Config.defaultParams with digiIndexEqCountFails := false } }).results =
        { status := some .ok, csOut := some #v[0x20, 0x20, 0x20, 0x20, 0x20, 0x20], ssidOut := some 0, extOut := some false } ∧
      (after (.getDigipeater 8)
        { withWp eightRelays with params := { Config.defaultParams with digiIndexEqCountFails := false } }).results =
        failedResults .indexOutOfRange := by decide

/-- V-PM23: the tail is not cleared. -/
theorem test_setPayload :
    (after (.setPayload [0x78, 0x79])
        (withWp { resetPacket 0x40 with payload := [(0, 0x41), (1, 0x42), (2, 0x43), (3, 0x44), (4, 0x45), (5, 0x46), (6, 0x47), (7, 0x48)]
                                        plen := 8 })).wp =
      { resetPacket 0x40 with payload := twoRelays.payload, plen := 2 } := by decide

/-- V-PM25: byte 256 of the input is dropped. -/
theorem test_setPayload_long :
    (after (.setPayload (List.replicate 257 0x00)) (withWp twoRelays)).wp.plen = 256 ∧
      (after (.setPayload (List.replicate 257 0x00)) (withWp twoRelays)).wp.payload = [] := by decide +kernel

/-- V-FB1: everything but the two checksum bytes. -/
theorem test_buildFrame :
    ((after (.buildFrame false) (withWp sourcePacket)).results.frame.map (List.take 37)) =
      some [0x86, 0xA2, 0x40, 0x40, 0x40, 0x40, 0x60, 0xAC, 0xAA, 0x66, 0x8A, 0x9A, 0x40, 0x62, 0x88, 0x92, 0x8E, 0x92, 0x62, 0x40, 0x63,
        0x54, 0x48, 0x49, 0x53, 0x20, 0x49, 0x53, 0x20, 0x50, 0x41, 0x43, 0x4B, 0x45, 0x54, 0x20, 0x30] ∧
      (after (.buildFrame false) (withWp sourcePacket)).results.frameLen = some 39 := by decide

/-- V-FB3 with the checksum left open, and V-FB7. -/
theorem test_buildFrame_fresh :
    (after (.buildFrame false) State.reset).results.frame =
      some (Packet.withChecksum [0x40, 0x40, 0x40, 0x40, 0x40, 0x40, 0x40, 0x40, 0x40, 0x40, 0x40, 0x40, 0x40, 0x41]) ∧
      (after (.buildFrame true) State.reset).results = failedResults .invalidArgument := ⟨rfl, rfl⟩

/-- R122. -/
theorem test_qInit : (after .qInit (queued (some 0) (some 2))).q = (queued none none).q := by decide

/-- V-Q6: the rear wraps; V-Q5: full. -/
theorem test_qPush :
    (after .qPush (queued (some 3) (some 9))).q = { (queued (some 3) (some 0)).q with slot := (queued none none).q.slot.set 0 (some State.reset.wp) } ∧
      (after .qPush (queued (some 0) (some 9))).results = failedResults .queueFull := by decide

/-- V-Q1 to V-Q3, V-Q7: the indices of a push. -/
theorem test_qPush_empty :
    (after .qPush State.reset).q.front = some 0 ∧ (after .qPush State.reset).q.rear = some 0 ∧
      (after .qPush (queued (some 3) (some 2))).results = failedResults .queueFull := by decide

/-- V-Q11: the front wraps; V-Q8: empty. -/
theorem test_qPop :
    (after .qPop (queued (some 9) (some 2))).q = (queued (some 0) (some 2)).q ∧
      (after .qPop (queued (some 9) (some 2))).wp = numbered 9 ∧
      (after .qPop State.reset).results = failedResults .queueEmpty := by decide

/-- V-Q12: the last packet leaves both indices -1. -/
theorem test_qPop_last : (after .qPop (queued (some 2) (some 2))).q = (queued none none).q := by decide

/-- V-X2: an illegal word, its status number, and that the state stays. -/
theorem test_illegal :
    (afterWord 0x0000000F (withWp twoRelays)).results = failedResults .illegalCommand ∧
      (afterWord 0x0000000F (withWp twoRelays)).block = (withWp twoRelays).block := by decide

/-! ## Witnesses: inputs that meet the hypotheses of each obligation -/

/-- The invariant of `WP` for a packet, clause by clause on concrete data. -/
theorem test_twoRelays_inv : twoRelays.Inv := ⟨by decide, by decide, by decide, rfl, rfl, by decide⟩
theorem test_eightRelays_inv : eightRelays.Inv := ⟨by decide, by decide, by decide, rfl, rfl, by decide⟩
theorem test_sourcePacket_inv : sourcePacket.Inv := ⟨by decide, by decide, by decide, rfl, rfl, by decide⟩
theorem test_numbered_inv (i : Fin 10) : (numbered i).Inv :=
  have h : extBit (resetAddress 0x40) = false := by decide
  ⟨h, h, fun _ h => absurd h (Nat.not_lt_zero _), rfl, rfl, Memory.wf_nil⟩

/-- A state that meets the invariant with a full queue in the wrapped position (V-Q7), two relays and a stale payload tail. -/
def busy : State := { queued (some 3) (some 2) with wp := twoRelays }

theorem test_busy_inv : busy.Inv :=
  ⟨test_twoRelays_inv, ⟨by decide, by
    intro i p h
    fin_cases i <;> (cases h; exact test_numbered_inv _), by decide⟩, .inl rfl⟩

/-- `busy` with another stale payload tail and another stale relay slot. -/
def busyStale : State :=
  { busy with wp := { twoRelays with payload := [(0, 0x78), (1, 0x79)], digi := twoRelays.digi.set 5 vu3em } }

theorem test_busyStale_inv : busyStale.Inv :=
  ⟨⟨by decide, by decide, by decide, rfl, rfl, by decide⟩, test_busy_inv.q, .inl rfl⟩

theorem test_packet_sameButStale_refl (p : Packet) : p.SameButStale p := ⟨rfl, rfl, rfl, rfl, rfl, rfl, fun _ _ => rfl, fun _ _ => rfl⟩

/-- StaleDataStaysInvisible: two different states that differ in stale data only. -/
theorem test_witness_staleDataStaysInvisible :
    busy.Inv ∧ busyStale.Inv ∧ busy.SameButStale busyStale ∧ busy.params.digiIndexEqCountFails = true ∧ busy ≠ busyStale := by
  refine ⟨test_busy_inv, test_busyStale_inv, ⟨⟨rfl, rfl, rfl, rfl, rfl, rfl, by decide, by decide⟩, rfl, rfl, ?_, rfl, rfl, rfl⟩, rfl,
    by decide⟩
  refine List.forall₂_same.2 fun o _ => ?_
  cases o with
  | none => exact .none
  | some p => exact .some (test_packet_sameButStale_refl p)

/-- StepKeepsTheInvariant: a step of `busy` that pops. -/
theorem test_witness_stepKeepsTheInvariant :
    ∃ t, busy.Inv ∧ step (busy.withFetchWord 32 0xE) = .next t ∧ (busy.withFetchWord 32 0xE).Inv ∧ t.wp = numbered 3 :=
  ⟨_, test_busy_inv, rfl, ⟨test_busy_inv.wp, test_busy_inv.q, .inl rfl⟩, rfl⟩

/-- DecodeOfEncodeIsIdentity: the largest operands. -/
theorem test_witness_decodeOfEncode :
    Instr.wellFormed (.addDigipeater true 0xFF 15) = true ∧ Instr.wellFormed (.getDigipeater 15) = true := by decide

/-- DecoderAcceptsExactlyTheTable: a reserved bit, each reserved `op`, and a word of the table at each end. -/
theorem test_witness_decoderAcceptsExactlyTheTable :
    (0x80000003 : CommandWord) &&& 0xFF0000E0 ≠ 0 ∧ (0x00FFFF10 : CommandWord) &&& 0xF = 0 ∧ (0x0000000F : CommandWord) &&& 0xF = 0xF ∧
      ((0x00FFFF1E : CommandWord) &&& 0xFF0000E0 = 0 ∧ (0x00FFFF1E : CommandWord) &&& 0xF ≠ 0 ∧ (0x00FFFF1E : CommandWord) &&& 0xF ≠ 0xF) ∧
      ((0x00000001 : CommandWord) &&& 0xFF0000E0 = 0 ∧ (0x00000001 : CommandWord) &&& 0xF ≠ 0) := by decide

/-- UnusedFieldsAreIgnored: words that differ in unused fields only, one for each set of used fields. -/
theorem test_witness_unusedFieldsAreIgnored :
    ((0x00500106 : CommandWord) &&& 0xFF0000EF = 0x005F0106 &&& 0xFF0000EF ∧
        (0x00500106 : CommandWord) &&& 0x00F0FF10 = 0x005F0106 &&& 0x00F0FF10) ∧
      ((0x00070009 : CommandWord) &&& 0xFF0000EF = 0x00F7FF19 &&& 0xFF0000EF ∧
        (0x00070009 : CommandWord) &&& 0x000F0000 = 0x00F7FF19 &&& 0x000F0000) ∧
      ((0x0000001B : CommandWord) &&& 0xFF0000EF = 0x00FFFF1B &&& 0xFF0000EF ∧
        (0x0000001B : CommandWord) &&& 0x00000010 = 0x00FFFF1B &&& 0x00000010) ∧
      (0x00000003 : CommandWord) &&& 0xFF0000EF = 0x00FFFF13 &&& 0xFF0000EF := by decide

/-- StepRunsTheDecodedCommand, EarlierResultsAreUnreadable. -/
theorem test_witness_stepRunsTheDecodedCommand :
    (busy.withFetchWord 32 0x00500106).pending = [{ word := 0x00500106, operands := idleOperands }] ∧
      decode 0x00500106 = .ok (.addDigipeater false 1 5) ∧ (busy.withFetchWord 32 0x00500106).pending ≠ [] := by decide

/-- IllegalWordsRaiseIllegalCommand: each of its three ways; ConditionMatrixIsExact (second clause): a word that is no command. -/
theorem test_witness_illegalWords :
    (State.reset.withFetchWord 32 0x0).pending = [{ word := 0x0, operands := idleOperands }] ∧ (0x0 : CommandWord) &&& 0xF = 0 ∧
      (State.reset.withFetchWord 32 0xF).pending = [{ word := 0xF, operands := idleOperands }] ∧ (0xF : CommandWord) &&& 0xF = 0xF ∧
      (State.reset.withFetchWord 32 0x23).pending = [{ word := 0x23, operands := idleOperands }] ∧
      (0x23 : CommandWord) &&& 0xFF0000E0 ≠ 0 ∧ decode 0x23 = .error .reservedBits := by decide

/-- NothingStopsTheBlock (second clause), ConditionsWriteNoState: an operation that fails. -/
theorem test_witness_condition :
    ∃ t, exec .qPush busy = .next t ∧ ¬ t.succeeded ∧ t = { busy with results := failedResults .queueFull } :=
  ⟨_, rfl, by unfold State.succeeded; decide, rfl⟩

/-- HostLineRunsItsOperation and PortsLoseNothingOfACallsign: a callsign longer than the ports carry (V-AC13). -/
theorem test_witness_hostLine :
    let l := Line.encodeAddress (some (List.replicate 17 0x41)) 0
    ({ State.reset with pending := [l.assemble] } : State).pending = [l.assemble] ∧ l.assemble.word = 0x00F00001 :=
  ⟨rfl, by decide⟩

theorem test_witness_hostLine_setters :
    let l := Line.setSource (some []) 0xFF
    let l' := Line.setDestination (some [0x80]) 0
    ({ State.reset with pending := [l.assemble, l'.assemble] } : State).pending = [l.assemble, l'.assemble] ∧
      ({ State.reset with pending := [l'.assemble] } : State).pending = [l'.assemble] := ⟨rfl, rfl⟩

/-- The row of each operation's decoding: the shortest word and one with every ignored bit set. -/
theorem test_witness_rowDecodes :
    (0x00FFFF11 : CommandWord) &&& 0xFF0000EF = 0x1 ∧ (0x00FFFF12 : CommandWord) &&& 0xFF0000EF = 0x2 ∧
      (0x00FFFF13 : CommandWord) &&& 0xFF0000EF = 0x3 ∧ (0x00FFFF14 : CommandWord) &&& 0xFF0000EF = 0x4 ∧
      (0x00FFFF15 : CommandWord) &&& 0xFF0000EF = 0x5 ∧ (0x00FFFF16 : CommandWord) &&& 0xFF0000EF = 0x6 ∧
      (0x00FFFF17 : CommandWord) &&& 0xFF0000EF = 0x7 ∧ (0x00FFFF18 : CommandWord) &&& 0xFF0000EF = 0x8 ∧
      (0x00FFFF19 : CommandWord) &&& 0xFF0000EF = 0x9 ∧ (0x00FFFF1A : CommandWord) &&& 0xFF0000EF = 0xA ∧
      (0x00FFFF1B : CommandWord) &&& 0xFF0000EF = 0xB ∧ (0x00FFFF1C : CommandWord) &&& 0xFF0000EF = 0xC ∧
      (0x00FFFF1D : CommandWord) &&& 0xFF0000EF = 0xD ∧ (0x00FFFF1E : CommandWord) &&& 0xFF0000EF = 0xE := by decide

/-- DecodeOfEncodedAddress: exactly six 7-bit characters, none at all, and seven characters. -/
theorem test_witness_decodeOfEncodedAddress :
    let six : Callsign := [0x4E, 0x30, 0x43, 0x41, 0x4C, 0x7F]
    (six.length ≤ 6 ∧ ∀ c ∈ six, c.getLsbD 7 = false) ∧ ([] : Callsign).length ≤ 6 ∧ (List.replicate 7 (0x41 : Byte)).length > 6 := by
  decide

/-- EncodeOfDecodedAddress: an encoder's output with its bit set. -/
theorem test_witness_encodeOfDecodedAddress :
    (setExt vu3em)[6].extractLsb' 5 3 = 0b011 ∧ (∀ i : Fin 6, (setExt vu3em)[i.val].getLsbD 0 = false) ∧ extBit (setExt vu3em) = true ∧
      vu3em = encodeAddress [0x56, 0x55, 0x33, 0x45, 0x4D] 1 := by decide

/-- PktInitResetsEveryField, GetDigipeaterAtTheCountWhenAllowed, FreshPacketFrame: both values of `INIT_B7`, and a frame bound of 16. -/
theorem test_witness_parameters :
    busy.params.initB7 = 0x40 ∧
      ({ busy with params := { maxFrameLen := 16, initB7 := 0x60, digiIndexEqCountFails := false } } : State).params.initB7 = 0x60 ∧
      ({ busy with params := { maxFrameLen := 16, initB7 := 0x40, digiIndexEqCountFails := false } } : State).params.initB7 = 0x40 ∧
      16 ≤ ({ busy with params := { maxFrameLen := 16, initB7 := 0x40, digiIndexEqCountFails := false } } : State).params.maxFrameLen := by
  decide

/-- InitializersAreIdempotentAndTotal, ResetIsPktInitThenQInit: states that share their parameters with reset and differ from it. -/
theorem test_witness_initializers : busy.params = State.reset.params ∧ busy.wp ≠ State.reset.wp := by decide

/-- AddDigipeaterAppendsARelay: full, and with room for the last relay; a slot for each clause. -/
theorem test_witness_addDigipeater :
    (withWp eightRelays).wp.ndigi.val = 8 ∧ busy.wp.ndigi.val < 8 ∧ (2 : Fin 8).val = busy.wp.ndigi.val ∧
      (1 : Fin 8).val + 1 = busy.wp.ndigi.val ∧ ((7 : Fin 8).val ≠ busy.wp.ndigi.val ∧ (7 : Fin 8).val + 1 ≠ busy.wp.ndigi.val) ∧
      ({ eightRelays with ndigi := 7 } : Packet).ndigi.val < 8 := by decide

theorem test_witness_addDigipeater_inv : busy.wp.ndigi.val < 8 ∧ busy.wp.Inv := ⟨by decide, test_twoRelays_inv⟩

/-- RelayChainFillsInCallOrder: nine calls from reset. -/
theorem test_witness_relayChain :
    let calls : List (Callsign × Byte) := List.replicate 9 ([0x52, 0x4C, 0x59], 1)
    let s : State := { State.reset with pending := calls.map (fun c => (Line.addDigipeater (some c.1) c.2).assemble) }
    s.wp.ndigi.val = 0 ∧ s.pending = calls.map (fun c => (Line.addDigipeater (some c.1) c.2).assemble) ∧ 9 ≤ calls.length :=
  ⟨rfl, rfl, by decide⟩

/-- GetSourceDecodesTheSource, GetDestinationDecodesTheDestination. -/
theorem test_witness_getters : (withWp sourcePacket).wp.Inv := test_sourcePacket_inv

/-- GetDigipeaterDecodesARelay: the last relay, the index equal to the count, and the largest index. -/
theorem test_witness_getDigipeater :
    busy.params.digiIndexEqCountFails = true ∧ busy.wp.ndigi.val ≤ 2 ∧ busy.wp.ndigi.val ≤ 15 ∧
      ((1 : Fin 8).val = 1 ∧ 1 < busy.wp.ndigi.val) := by decide

/-- GetDigipeaterAtTheCountWhenAllowed: an index above the count, index 8 of eight relays, and the index equal to the count. -/
theorem test_witness_getDigipeaterAtTheCount :
    let s : State := { busy with params := { Config.defaultParams with digiIndexEqCountFails := false } }
    let s' : State := { s with wp := eightRelays }
    s.params.digiIndexEqCountFails = false ∧ s.wp.ndigi.val < 3 ∧ (2 : Fin 8).val ≤ s.wp.ndigi.val ∧
      s'.params.digiIndexEqCountFails = false ∧ (s'.wp.ndigi.val < 8 ∨ 8 ≤ 8) := by decide

/-- SetPayloadCopiesAndTruncates, DiagnosticReadsShowTheState: a canonical buffer, and an input one byte too long. -/
theorem test_witness_setPayload :
    Memory.wf busy.wp.payload ∧
      (0 : Nat) < min ({ idleOperands with plIn := List.replicate 257 (0xFF : Byte) } : Operands).plIn.length 256 := by
  refine ⟨by decide, ?_⟩
  rw [List.length_replicate]
  decide

theorem test_witness_repeating :
    Memory.wf busy.wp.payload ∧ (∀ a b c, Instr.setPayload ≠ .addDigipeater a b c) ∧ Instr.setPayload ≠ .qPush ∧ Instr.setPayload ≠ .qPop ∧
      readsOnly (.buildFrame false) = true :=
  ⟨by decide, by simp, by decide, by decide, rfl⟩

/-- OnlyTheMarkedStateIsWritten: a pop that changes `WP`. -/
theorem test_witness_exec_next : ∃ t, exec .qPop busy = .next t ∧ t.wp ≠ busy.wp := ⟨_, rfl, by decide⟩

/-- RelayCountOnlyGrowsOrIsReplaced, clause by clause: PKT_INIT of a packet with relays, the last relay that fits, a pop that changes the
count, a full chain, and an operation that keeps the count. -/
theorem test_witness_relayCount :
    (∃ t, exec .pktInit busy = .next t ∧ busy.wp.ndigi.val = 2) ∧
      (∃ t, exec (.addDigipeater false 0 0) (withWp { eightRelays with ndigi := 7 }) = .next t ∧ t.succeeded) ∧
      (∃ t, exec .qPop busy = .next t ∧ busy.q.front = some 3 ∧ busy.q.slot[(3 : Fin 10)] = some (numbered 3) ∧
        busy.wp.ndigi ≠ (numbered 3).ndigi) ∧
      (∃ t, exec (.addDigipeater false 0 0) (withWp eightRelays) = .next t ∧ ¬ t.succeeded) ∧
      ∃ t, exec .setPayload busy = .next t :=
  ⟨⟨_, rfl, rfl⟩, ⟨_, rfl, rfl⟩, ⟨_, rfl, rfl, rfl, by decide⟩, ⟨_, rfl, by unfold State.succeeded; decide⟩, _, rfl⟩

/-- BuildFrameEmitsTheFrame, LengthCheckRejectsOnlyOverLongFrames: the bound just missed, just met, and the default. -/
theorem test_witness_buildFrame :
    let s : State := { busy with params := { Config.defaultParams with maxFrameLen := 31 } }
    let s' : State := { busy with params := { Config.defaultParams with maxFrameLen := 32 } }
    s.params.maxFrameLen < 7 + 7 + 7 * s.wp.ndigi.val + s.wp.plen.val + 2 ∧
      7 + 7 + 7 * s'.wp.ndigi.val + s'.wp.plen.val + 2 ≤ s'.params.maxFrameLen ∧ 328 ≤ busy.params.maxFrameLen ∧
      (1 : Fin 8).val < s'.wp.ndigi.val ∧ 1 < s'.wp.plen.val := by decide

/-- ExactlyTheLastBlockIsMarked, EmittedRelaysAreTheStoredOnes. -/
theorem test_witness_frame_inv : busy.wp.Inv ∧ 16 + 7 * busy.wp.ndigi.val + busy.wp.plen.val ≤ busy.params.maxFrameLen ∧
    3 ≤ busy.wp.ndigi.val + 1 := ⟨test_twoRelays_inv, by decide, by decide⟩

/-- FrameDependsOnNothingElse: other control and protocol-id bytes, another stale relay, another stale tail, another queue. -/
theorem test_witness_frameDepends :
    let s : State := { State.reset with wp := { busyStale.wp with ctrl := 0x03, pid := 0x00 } }
    busy.params.maxFrameLen = s.params.maxFrameLen ∧ busy.wp.dst = s.wp.dst ∧ busy.wp.src = s.wp.src ∧ busy.wp.ndigi = s.wp.ndigi ∧
      (∀ i : Fin 8, i.val < busy.wp.ndigi.val → busy.wp.digi[i] = s.wp.digi[i]) ∧ busy.wp.plen = s.wp.plen ∧
      (∀ j, j < busy.wp.plen.val → busy.wp.payload.read j = s.wp.payload.read j) ∧ busy.wp ≠ s.wp := by decide

/-- QPushCopiesThePacketIntoTheNextSlot: full in both positions, empty, and the wrap. -/
theorem test_witness_qPush :
    (let q := busy.q; indexValue q.front = indexValue q.rear + 1) ∧
      (let q := (queued (some 0) (some 9)).q; indexValue q.front = 0 ∧ indexValue q.rear = 9) ∧
      (let q := State.reset.q; ¬ (indexValue q.front = indexValue q.rear + 1 ∨ (indexValue q.front = 0 ∧ indexValue q.rear = 9))) ∧
      (let q := (queued (some 3) (some 9)).q;
        ¬ (indexValue q.front = indexValue q.rear + 1 ∨ (indexValue q.front = 0 ∧ indexValue q.rear = 9))) := by decide

/-- QPopCopiesTheFrontPacketOut: empty, the wrap of the front, and the last packet. -/
theorem test_witness_qPop :
    indexValue State.reset.q.front = -1 ∧ indexValue (queued (some 9) (some 2)).q.front = (9 : Fin 10).val ∧
      (queued (some 9) (some 2)).q.slot[(9 : Fin 10)] = some (numbered 9) ∧
      (queued (some 9) (some 2)).q.front ≠ (queued (some 9) (some 2)).q.rear ∧
      (indexValue (queued (some 2) (some 2)).q.front = (2 : Fin 10).val ∧ (queued (some 2) (some 2)).q.front = (queued (some 2) (some 2)).q.rear) := by
  decide

/-- FullTestIsExact, CountLaw, QueueRefinesABoundedList, ConditionMatrixIsExact: empty, one resident, full. -/
theorem test_witness_sentinel :
    (State.reset.q.front = none ↔ State.reset.q.rear = none) ∧
      ((queued (some 2) (some 2)).q.front = none ↔ (queued (some 2) (some 2)).q.rear = none) ∧ (queued (some 2) (some 2)).q.count = 1 ∧
      (busy.q.front = none ↔ busy.q.rear = none) ∧ busy.q.count = 10 ∧ busy.params.digiIndexEqCountFails = true := by decide

/-- QueueIsFirstInFirstOut: one resident packet, a push, the pop of the other, and the pop of the one pushed. -/
theorem test_witness_fifo :
    let p (w : CommandWord) : Command := { word := w, operands := idleOperands }
    let s : State := { queued (some 9) (some 9) with wp := twoRelays, pending := [p 0xD, p 0xE, p 0xE] }
    (s.q.front = none ↔ s.q.rear = none) ∧ NextIs .qPush s ∧ s.q.count < 10 ∧ (∀ c ∈ s.pending, decode c.word ≠ .ok .qInit) ∧
      ∃ s1 s2, step s = .next s1 ∧ run 1 s1 = .next s2 ∧ popsDuring 1 s1 = s.q.count ∧ NextIs .qPop s2 :=
  ⟨by decide, ⟨_, _, rfl, by decide⟩, by decide, by decide, _, _, rfl, rfl, by decide, _, _, rfl, by decide⟩

end Sys2Proof.Tests
end

/-! PROOFS of 10_state.md: the queue as a bounded list (R32). -/

namespace Sys2Proof.Machine

/-- Outside the queue operations an instruction writes `WP` and drives the result ports, and nothing else (10_state.md R37). -/
theorem exec_writes_wp_of_not_queue (i : Instr) (s : State) (hi : i ≠ .qInit) (hu : i ≠ .qPush) (ho : i ≠ .qPop) :
    ∃ (p : Packet) (r : Results), exec i s = .next ((s.setWp p).setResults r) := by
  cases i with
  | encodeAddress null ssid csLen =>
    simp only [exec, execEncodeAddress]
    split <;> exact ⟨s.wp, _, rfl⟩
  | addDigipeater null ssid csLen =>
    simp only [exec, execAddDigipeater]
    split
    · exact ⟨s.wp, _, rfl⟩
    · exact ⟨_, _, rfl⟩
  | getDigipeater index =>
    simp only [exec, execGetDigipeater]
    split <;> exact ⟨s.wp, _, rfl⟩
  | buildFrame null =>
    simp only [exec, execBuildFrame]
    split <;> exact ⟨s.wp, _, rfl⟩
  | decodeAddress | getSource | getDestination => exact ⟨s.wp, _, rfl⟩
  | pktInit | setSource _ _ _ | setDestination _ _ _ | setPayload => exact ⟨_, _, rfl⟩
  | qInit => exact absurd rfl hi
  | qPush => exact absurd rfl hu
  | qPop => exact absurd rfl ho

/-- Outside the queue operations no instruction touches the queue. -/
theorem exec_q_of_not_queue {i : Instr} {s t : State} (h : exec i s = .next t) (hi : i ≠ .qInit) (hu : i ≠ .qPush)
    (ho : i ≠ .qPop) : t.q = s.q := by
  obtain ⟨p, r, e⟩ := exec_writes_wp_of_not_queue i s hi hu ho
  rw [e] at h
  cases h
  rfl

/-- Everything Q_INIT does. -/
theorem exec_qInit (s : State) : exec .qInit s = .next ((s.setQ s.q.init).setResults .done) := rfl

/-- Q_PUSH on the list view: `WP` is appended, or the list has ten packets and the queue is kept (43_packet_queue.md R124). -/
theorem exec_qPush_contents {s : State} (h : s.q.front = none ↔ s.q.rear = none) :
    ∃ t, exec .qPush s = .next t ∧
      ((s.q.contents.length = 10 ∧ t.results = failedResults .queueFull ∧ t.q = s.q) ∨
        (s.q.contents.length < 10 ∧ t.succeeded ∧ t.q.contents = s.q.contents ++ [some s.wp] ∧ t.wp = s.wp)) := by
  have hfull := Queue.isFull_iff_count h
  cases hq : s.q.isFull with
  | true => exact ⟨_, exec_qPush_full hq, .inl ⟨by simpa using hfull.1 hq, rfl, rfl⟩⟩
  | false =>
    have hlt : s.q.count < 10 := lt_of_le_of_ne s.q.count_le fun e => by simp [hfull.2 e] at hq
    exact ⟨_, exec_qPush_ok hq, .inr ⟨by simpa using hlt, rfl, Queue.contents_pushed s.wp h hq, rfl⟩⟩

/-- Q_POP on the list view: the head is copied into `WP` and removed, or the list is empty and nothing is written
(43_packet_queue.md R127). -/
theorem exec_qPop_contents {s : State} (h : s.q.front = none ↔ s.q.rear = none) :
    ∃ t, exec .qPop s = .next t ∧
      ((s.q.contents = [] ∧ t.results = failedResults .queueEmpty ∧ t.q = s.q ∧ t.wp = s.wp) ∨
        ∃ o rest, s.q.contents = o :: rest ∧ t.succeeded ∧ t.q.contents = rest ∧ ∀ x, o = some x → t.wp = x) := by
  cases hf : s.q.front with
  | none => exact ⟨_, exec_qPop_empty hf, .inl ⟨Queue.contents_none hf, rfl, rfl, rfl⟩⟩
  | some f =>
    obtain ⟨r, hr⟩ := Option.ne_none_iff_exists'.1 (h.not.1 (by simp [hf]))
    have hcopy : ∀ x, s.q.slot[f] = some x → s.q.readSlot f = x := fun x hx => by simp [Queue.readSlot, hx]
    exact ⟨_, exec_qPop_ok hf, .inr ⟨_, _, Queue.contents_popped hf hr, rfl, rfl, hcopy⟩⟩

/-- Settles O43: the list view commutes with each queue operation, and no other operation reaches the queue. -/
theorem queueRefinesABoundedList : Obligations.QueueRefinesABoundedList := by
  intro s h
  exact ⟨by simpa using s.q.count_le, ⟨_, exec_qInit s, Queue.contents_none rfl⟩, exec_qPush_contents h, exec_qPop_contents h,
    fun _ _ => exec_q_of_not_queue⟩

end Sys2Proof.Machine

/-! PROOFS of 20_memory.md: issuing an operation again (R48). -/

namespace Sys2Proof.Machine

namespace Memory

/-- Writing the same bytes again changes nothing: in the canonical form equal contents are the same list. -/
theorem writeBytes_writeBytes {m : Memory} {i : Nat} {v : List Byte} (h : wf m) (hi : i + v.length ≤ 256) :
    writeBytes (writeBytes m i v) i v = writeBytes m i v := by
  have h1 := wf_writeBytes h hi
  refine eq_of_read_eq (wf_writeBytes h1 hi) h1 fun j => ?_
  rw [read_writeBytes j h1 hi, read_writeBytes j h hi]
  split
  · cases v[j - i]? <;> rfl
  · rfl

end Memory

namespace Packet

theorem setSource_setSource (p : Packet) (cs : Option Callsign) (ssid : Byte) :
    (p.setSource cs ssid).setSource cs ssid = p.setSource cs ssid := by
  cases cs <;> rfl

theorem setDestination_setDestination (p : Packet) (cs : Option Callsign) (ssid : Byte) :
    (p.setDestination cs ssid).setDestination cs ssid = p.setDestination cs ssid := by
  cases cs <;> rfl

theorem setPayload_setPayload {p : Packet} (bytes : List Byte) (h : Memory.wf p.payload) :
    (p.setPayload bytes).setPayload bytes = p.setPayload bytes := by
  have hlen : 0 + (bytes.take (min bytes.length 256)).length ≤ 256 := by
    rw [List.length_take]
    omega
  simp only [setPayload, Config.maxPayload, Memory.writeBytes_writeBytes h hlen]

end Packet

/-- Everything PKT_INIT does. -/
theorem exec_pktInit (s : State) : exec .pktInit s = .next ((s.setWp (Packet.init s.params.initB7)).setResults .done) := rfl

/-- Everything SET_SOURCE does. -/
theorem exec_setSource (null : Bool) (ssid : Byte) (csLen : Nat) (s : State) :
    exec (.setSource null ssid csLen) s =
      .next ((s.setWp (s.wp.setSource (callsignOperand null csLen s.operands) ssid)).setResults .done) := rfl

/-- Everything SET_DESTINATION does. -/
theorem exec_setDestination (null : Bool) (ssid : Byte) (csLen : Nat) (s : State) :
    exec (.setDestination null ssid csLen) s =
      .next ((s.setWp (s.wp.setDestination (callsignOperand null csLen s.operands) ssid)).setResults .done) := rfl

/-- Everything SET_PAYLOAD does. -/
theorem exec_setPayload (s : State) :
    exec .setPayload s = .next ((s.setWp (s.wp.setPayload (payloadOperand s.operands))).setResults .done) := rfl

/-- A reading operation drives the result ports and writes nothing else (20_memory.md R48). -/
theorem exec_of_readsOnly {i : Instr} (h : readsOnly i = true) (s : State) : ∃ r, exec i s = .next (s.setResults r) := by
  cases i with
  | encodeAddress null ssid csLen =>
    simp only [exec, execEncodeAddress]
    split <;> exact ⟨_, rfl⟩
  | getDigipeater index =>
    simp only [exec, execGetDigipeater]
    split <;> exact ⟨_, rfl⟩
  | buildFrame null =>
    simp only [exec, execBuildFrame]
    split <;> exact ⟨_, rfl⟩
  | decodeAddress | getSource | getDestination => exact ⟨_, rfl⟩
  | pktInit | setSource _ _ _ | setDestination _ _ _ | addDigipeater _ _ _ | setPayload | qInit | qPush | qPop => cases h

/-- A reading operation, issued again, answers the same state, because no operation reads the result ports. -/
theorem exec_repeats_of_readsOnly {i : Instr} (h : readsOnly i = true) (s : State) :
    ∃ t, exec i s = .next t ∧ exec i t = .next t ∧ t.block = s.block := by
  obtain ⟨r, e⟩ := exec_of_readsOnly h s
  exact ⟨_, e, (exec_setResults i s r).trans e, rfl⟩

/-- An operation that only writes `WP`, issued again, answers the same state, if it computes the same packet from the one it wrote. -/
theorem exec_repeats_of_wp {i : Instr} {f : State → Packet} (h : ∀ s, exec i s = .next ((s.setWp (f s)).setResults .done))
    {s : State} (hf : f (s.setWp (f s)) = f s) : ∃ t, exec i s = .next t ∧ exec i t = .next t := by
  refine ⟨_, h s, ?_⟩
  rw [exec_setResults, h, hf]
  rfl

/-- Every writing operation but ADD_DIGIPEATER, Q_PUSH and Q_POP, issued again, answers the same state. -/
theorem exec_repeats_of_writes {i : Instr} {s : State} (h : Memory.wf s.wp.payload) (hr : ¬ readsOnly i = true)
    (ha : ∀ a b c, i ≠ .addDigipeater a b c) (hu : i ≠ .qPush) (ho : i ≠ .qPop) :
    ∃ t, exec i s = .next t ∧ exec i t = .next t := by
  cases i with
  | pktInit => exact exec_repeats_of_wp exec_pktInit rfl
  | setSource null ssid csLen =>
    exact exec_repeats_of_wp (exec_setSource null ssid csLen) (Packet.setSource_setSource ..)
  | setDestination null ssid csLen =>
    exact exec_repeats_of_wp (exec_setDestination null ssid csLen) (Packet.setDestination_setDestination ..)
  | setPayload => exact exec_repeats_of_wp exec_setPayload (Packet.setPayload_setPayload _ h)
  | qInit => exact ⟨_, exec_qInit s, rfl⟩
  | addDigipeater null ssid csLen => exact absurd rfl (ha null ssid csLen)
  | qPush => exact absurd rfl hu
  | qPop => exact absurd rfl ho
  | encodeAddress _ _ _ | decodeAddress | getSource | getDestination | getDigipeater _ | buildFrame _ => exact absurd rfl hr

/-- From reset, two ADD_DIGIPEATER leave two relays and not one. -/
theorem addDigipeater_not_idempotent :
    ∃ s t u : State, exec (.addDigipeater false 0 0) s = .next t ∧ exec (.addDigipeater false 0 0) t = .next u ∧
      u.block ≠ t.block :=
  ⟨.reset, _, _, rfl, rfl, fun e => absurd (congrArg (·.1.ndigi) e) (by decide)⟩

/-- From reset, two Q_PUSH leave the rear at slot 1 and not at slot 0. -/
theorem qPush_not_idempotent :
    ∃ s t u : State, exec .qPush s = .next t ∧ exec .qPush t = .next u ∧ u.block ≠ t.block :=
  ⟨.reset, _, _, rfl, rfl, fun e => absurd (congrArg (·.2.rear) e) (by decide)⟩

/-- With two packets resident, two Q_POP leave the queue empty, and one does not. -/
theorem qPop_not_idempotent :
    ∃ s t u : State, exec .qPop s = .next t ∧ exec .qPop t = .next u ∧ u.block ≠ t.block :=
  ⟨State.reset.setQ ((State.reset.q.pushed State.reset.wp).pushed State.reset.wp), _, _, rfl, rfl,
    fun e => absurd (congrArg (·.2.front) e) (by decide)⟩

/-- Settles O48: the reading operations drive only the result ports, which no operation reads; each other operation but three computes
from what it wrote the same again; the three are shown on concrete states. -/
theorem repeatingAnOperation : Obligations.RepeatingAnOperation := by
  refine ⟨fun i s h ha hu ho => ?_, addDigipeater_not_idempotent, qPush_not_idempotent, qPop_not_idempotent⟩
  by_cases hr : readsOnly i = true
  · obtain ⟨t, e, e', hb⟩ := exec_repeats_of_readsOnly hr s
    exact ⟨t, e, e', fun _ => hb⟩
  · obtain ⟨t, e, e'⟩ := exec_repeats_of_writes h hr ha hu ho
    exact ⟨t, e, e', fun hr' => absurd hr' hr⟩

end Sys2Proof.Machine

/-! PROOFS of 30_encoding.md: the reserved words (R73), the bits of an address field (R57, R58, R63), the queue indices (R66). -/

namespace Sys2Proof

/-- The low four bits of a word are those of its `op`. -/
theorem opField_eq_of_and_opMask {w : CommandWord} {o : BitVec 4} (h : w &&& 0xF = o.setWidth 32) : w.opField = o := by
  rw [and_opMask] at h
  simpa using congrArg (BitVec.setWidth 4) h

theorem decode_of_reservedBits {w : CommandWord} (h : w &&& reservedMask ≠ 0) : decode w = .error .reservedBits := if_pos h

theorem decode_of_reservedOp {w : CommandWord} (h : w &&& reservedMask = 0) (ho : w.opField = 0 ∨ w.opField = 0xF) :
    decode w = .error .reservedOp := by
  unfold decode
  rw [if_neg (not_not.2 h)]
  rcases ho with ho | ho <;> rw [ho] <;> rfl

/-- The words of 30_encoding.md R73 are no command. -/
theorem decode_error_of_illegal {w : CommandWord} (h : w &&& 0xFF0000E0 ≠ 0 ∨ w &&& 0xF = 0 ∨ w &&& 0xF = 0xF) :
    ∃ e, decode w = .error e := by
  by_cases hr : w &&& reservedMask = 0
  · have ho : w.opField = 0 ∨ w.opField = 0xF :=
      (h.resolve_left (not_not.2 hr)).imp opField_eq_of_and_opMask opField_eq_of_and_opMask
    exact ⟨_, decode_of_reservedOp hr ho⟩
  · exact ⟨_, decode_of_reservedBits hr⟩

end Sys2Proof

namespace Sys2Proof.Machine

/-- Bits 7..1 of a character byte are the character's low seven bits (30_encoding.md R57). -/
theorem charByte_high (c : Byte) : (charByte c).extractLsb' 1 7 = c.extractLsb' 0 7 := by
  apply BitVec.eq_of_getLsbD_eq
  intro j hj
  interval_cases j <;> simp [charByte]

@[simp] theorem charByte_bit0 (c : Byte) : (charByte c).getLsbD 0 = false := by simp [charByte]

@[simp] theorem ssidByte_bit7 (ssid : Byte) : (ssidByte ssid).getLsbD 7 = false := by simp [ssidByte]

/-- Bits 6..5 of an SSID byte are the constant of 30_encoding.md R58. -/
theorem ssidByte_base (ssid : Byte) : (ssidByte ssid).extractLsb' 5 2 = 0b11 := by
  apply BitVec.eq_of_getLsbD_eq
  intro j hj
  interval_cases j <;> simp [ssidByte]

/-- Bits 4..1 of an SSID byte are the SSID's low four bits (30_encoding.md R58). -/
theorem ssidByte_ssid (ssid : Byte) : (ssidByte ssid).extractLsb' 1 4 = ssid.extractLsb' 0 4 := by
  apply BitVec.eq_of_getLsbD_eq
  intro j hj
  interval_cases j <;> simp [ssidByte]

/-- Setting a clear chain-extension bit adds one to the SSID byte. -/
theorem withExt_true_getElem_six {a : Address} (h : extBit a = false) : (withExt a true)[6] = a[6] + 1 := by
  have hand : a[6] &&& 1#8 = 0#8 := by
    rw [BitVec.and_one_eq_setWidth_ofBool_getLsbD, show a[6].getLsbD 0 = false from h]
    rfl
  rw [← setExt_eq_withExt, setExt, Vector.getElem_set_self]
  exact (BitVec.add_eq_or_of_and_eq_zero _ _ hand).symm

/-- Under the packet invariant the last of the address blocks, and no other, carries the chain-extension bit (30_encoding.md R63). -/
theorem Packet.extBit_blocks {p : Packet} (h : p.Inv) {b : Nat} (hb : b < p.ndigi.val + 2) :
    ∃ a, p.blocks[b]? = some a ∧ extBit a = decide (b = p.ndigi.val + 1) := by
  match b with
  | 0 => exact ⟨p.dst, rfl, by simp [h.dstExt]⟩
  | 1 => exact ⟨_, rfl, by simp⟩
  | i + 2 =>
    have hi : i < p.ndigi.val := by omega
    exact ⟨_, p.getElem?_relayBlocks ⟨i, by omega⟩ hi, by simp⟩

/-- The values an index can show (30_encoding.md R66). -/
theorem indexValue_range (x : QIndex) : indexValue x = -1 ∨ (0 ≤ indexValue x ∧ indexValue x ≤ 9) := by
  cases x with
  | none => exact .inl rfl
  | some i =>
    rw [indexValue_some]
    omega

theorem indexPattern_some (i : Fin 10) : Diagnostic.indexPattern (some i) = BitVec.ofNat 5 i.val :=
  BitVec.ofInt_natCast 5 i.val

/-- Settles O15: the bits of the character byte and of the SSID byte, each at its place in the encoded address. -/
theorem addressFieldBits : Obligations.AddressFieldBits := by
  intro cs ssid a
  refine ⟨fun i => ?_, ssidByte_bit7 ssid, ssidByte_base ssid, ssidByte_ssid ssid, extBit_encodeAddress cs ssid,
    withExt_true_getElem_six (extBit_encodeAddress cs ssid)⟩
  rw [encodeAddress_char cs ssid i]
  exact ⟨charByte_high _, charByte_bit0 _⟩

/-- Settles O34: byte 6 of each address block of the frame is byte 6 of the packet's block, whose bit 0 the invariant gives. -/
theorem exactlyTheLastBlockIsMarked : Obligations.ExactlyTheLastBlockIsMarked := by
  intro s hinv hfit
  rw [← Packet.frameLength_eq] at hfit
  refine ⟨_, _, exec_buildFrame_ok hfit, rfl, fun b hb => ?_⟩
  obtain ⟨a, ha, hext⟩ := Packet.extBit_blocks hinv (b := b) (by omega)
  refine ⟨a[6], ?_, hext⟩
  rw [Packet.getElem?_withChecksum (by rw [Packet.length_frameBody]; omega),
    Packet.getElem?_frameBody_block s.wp b 6 (by decide) (by omega), ha]
  rfl

/-- Settles O6: such a word decodes to an error, and a step on an error raises IllegalCommand. -/
theorem illegalWordsRaiseIllegalCommand : Obligations.IllegalWordsRaiseIllegalCommand := by
  intro s c rest hpending hword
  obtain ⟨e, he⟩ := decode_error_of_illegal hword
  exact ⟨step_error hpending he, rfl⟩

/-- Settles O53: an index is the sentinel or one of the ten slot numbers. -/
theorem queueIndexValuesAndPatterns : Obligations.QueueIndexValuesAndPatterns :=
  ⟨fun s => ⟨rfl, rfl, indexValue_range s.q.front, indexValue_range s.q.rear⟩, rfl, indexValue_none,
    fun i => ⟨indexPattern_some i, indexValue_some i⟩⟩

end Sys2Proof.Machine

/-! PROOFS of 40_address_codec.md: the two operations (R81, R83), the round trips between callsign and address (R85, R86). -/

namespace Sys2Proof.Machine

/-! The two rows. -/

/-- The row of ENCODE_ADDRESS (40_address_codec.md R81). -/
theorem rowDecodes_encodeAddress :
    RowDecodes 0x1 (fun w => .encodeAddress (w.getLsbD 4) (w.extractLsb' 8 8) (w.extractLsb' 20 4).toNat) := by
  intro w h
  obtain ⟨hr, ho⟩ := of_row (o := 0x1) h
  unfold decode
  rw [if_neg (not_not.2 hr), ho]
  rfl

/-- The row of DECODE_ADDRESS (40_address_codec.md R83). -/
theorem rowDecodes_decodeAddress : RowDecodes 0x2 (fun _ => .decodeAddress) := by
  intro w h
  obtain ⟨hr, ho⟩ := of_row (o := 0x2) h
  unfold decode
  rw [if_neg (not_not.2 hr), ho]
  rfl

/-! The two byte codes of an address field (30_encoding.md R57, R58) and their inverses, bit by bit. -/

/-- Decoding a character byte gives the character without bit 7. -/
theorem charByte_decoded (c : Byte) : (charByte c >>> 1) &&& 0x7F = c &&& 0x7F := by
  apply BitVec.eq_of_getLsbD_eq
  intro j hj
  interval_cases j <;> simp [charByte]

/-- Encoding a decoded character byte clears its bit 0. -/
theorem charByte_of_decoded (b : Byte) : charByte ((b >>> 1) &&& 0x7F) = b &&& 0xFE := by
  apply BitVec.eq_of_getLsbD_eq
  intro j hj
  interval_cases j <;> simp [charByte]

/-- Decoding an SSID byte gives the low four bits of the SSID. -/
theorem ssidByte_decoded (ssid : Byte) : ((ssidByte ssid >>> 1) &&& 0x0F).setWidth 4 = (ssid &&& 0x0F).setWidth 4 := by
  apply BitVec.eq_of_getLsbD_eq
  intro j hj
  interval_cases j <;> simp [ssidByte]

/-- Encoding a decoded SSID byte keeps bits 4..1 and forces the others. -/
theorem ssidByte_of_decoded (b : Byte) :
    ssidByte ((((b >>> 1) &&& 0x0F).setWidth 4).setWidth 8) = (0x60 : Byte) ||| (b &&& (0x1E : Byte)) := by
  apply BitVec.eq_of_getLsbD_eq
  intro j hj
  interval_cases j <;> simp [ssidByte]

theorem and_0x7F_eq_self {c : Byte} (h : c.getLsbD 7 = false) : c &&& 0x7F = c := by
  rw [BitVec.getLsbD_eq_getElem (by decide)] at h
  apply BitVec.eq_of_getLsbD_eq
  intro j hj
  interval_cases j <;> simp [h]

theorem and_0xFE_eq_self {b : Byte} (h : b.getLsbD 0 = false) : b &&& 0xFE = b := by
  rw [BitVec.getLsbD_eq_getElem (by decide)] at h
  apply BitVec.eq_of_getLsbD_eq
  intro j hj
  interval_cases j <;> simp [h]

/-- An SSID byte already has the bits an encoding of its decoding forces. -/
theorem ssidByte_forced (ssid : Byte) : (0x60 : Byte) ||| (ssidByte ssid &&& (0x1E : Byte)) = ssidByte ssid := by
  apply BitVec.eq_of_getLsbD_eq
  intro j hj
  interval_cases j <;> simp [ssidByte]

/-- A byte with 0b011 in bits 7..5 is rebuilt from its bits 4..1 and its bit 0 (40_address_codec.md R86). -/
theorem ssidByte_rebuilt {b : Byte} (h : b.extractLsb' 5 3 = 0b011) :
    ((0x60 : Byte) ||| (b &&& (0x1E : Byte))) ||| (if b.getLsbD 0 then (0x01 : Byte) else 0x00) = b := by
  have hbit : ∀ k, (b.extractLsb' 5 3).getLsbD k = (0b011 : BitVec 3).getLsbD k := fun k => by rw [h]
  have h5 : b[5] = true := by simpa using hbit 0
  have h6 : b[6] = true := by simpa using hbit 1
  have h7 : b[7] = false := by simpa using hbit 2
  apply BitVec.eq_of_getLsbD_eq
  intro j hj
  cases h0 : b[0] <;> interval_cases j <;> simp [h0, h5, h6, h7]

/-! The padded callsign. -/

/-- Cutting a callsign to `n` characters keeps the padded characters below `n`. -/
theorem padChar_take (cs : Callsign) {n i : Nat} (hi : i < n) : padChar (cs.take n) i = padChar cs i := by
  rw [padChar, padChar, List.getElem?_take_of_lt hi]

theorem padChar_of_lt {cs : Callsign} {i : Nat} (h : i < cs.length) : padChar cs i = cs[i] := by simp [padChar, h]

theorem padChar_of_length_le {cs : Callsign} {i : Nat} (h : cs.length ≤ i) : padChar cs i = 0x20 := by simp [padChar, h]

/-- The padded characters of a 7-bit callsign are 7-bit characters. -/
theorem padChar_and_0x7F {cs : Callsign} (h : ∀ c ∈ cs, c.getLsbD 7 = false) (i : Nat) : padChar cs i &&& 0x7F = padChar cs i := by
  apply and_0x7F_eq_self
  rcases Nat.lt_or_ge i cs.length with hi | hi
  · rw [padChar_of_lt hi]
    exact h _ (List.getElem_mem hi)
  · rw [padChar_of_length_le hi]
    decide

/-- Character `i` of a callsign followed by spaces up to length `n`. -/
theorem getElem_append_spaces (cs : Callsign) {n i : Nat} (hi : i < (cs ++ List.replicate (n - cs.length) (0x20 : Byte)).length) :
    (cs ++ List.replicate (n - cs.length) (0x20 : Byte))[i] = padChar cs i := by
  rcases Nat.lt_or_ge i cs.length with h | h
  · rw [List.getElem_append_left h, padChar_of_lt h]
  · rw [List.getElem_append_right h, List.getElem_replicate, padChar_of_length_le h]

/-! The decoder, and the two round trips. -/

/-- Character `i` of a decoded callsign (40_address_codec.md R83). -/
theorem getElem_decodeCallsign (a : Address) (i : Fin 6) : (decodeCallsign a)[i.val] = (a[i.val] >>> 1) &&& (0x7F : Byte) := by
  fin_cases i <;> rfl

theorem padChar_decodeCallsign (a : Address) (i : Fin 6) :
    padChar (decodeCallsign a).toList i = (a[i.val] >>> 1) &&& (0x7F : Byte) := by
  rw [padChar_of_lt (by simp), Vector.getElem_toList, getElem_decodeCallsign]

/-- Encode, then decode: the padded callsign without bit 7 (40_address_codec.md R85). -/
theorem decodeCallsign_encodeAddress (cs : Callsign) (ssid : Byte) (i : Fin 6) :
    (decodeCallsign (encodeAddress cs ssid))[i.val] = padChar cs i &&& 0x7F := by
  rw [getElem_decodeCallsign, encodeAddress_char, charByte_decoded]

theorem decodeSsid_encodeAddress (cs : Callsign) (ssid : Byte) :
    decodeSsid (encodeAddress cs ssid) = (ssid &&& (0x0F : Byte)).setWidth 4 := ssidByte_decoded ssid

/-- The source's own round trip: a short 7-bit callsign comes back followed by spaces (40_address_codec.md R85). -/
theorem toList_decodeCallsign_encodeAddress {cs : Callsign} (ssid : Byte) (hlen : cs.length ≤ 6)
    (h7 : ∀ c ∈ cs, c.getLsbD 7 = false) :
    (decodeCallsign (encodeAddress cs ssid)).toList = cs ++ List.replicate (6 - cs.length) 0x20 := by
  apply List.ext_getElem
  · simp
    omega
  · intro i h _
    rw [Vector.length_toList] at h
    rw [Vector.getElem_toList, decodeCallsign_encodeAddress cs ssid ⟨i, h⟩, padChar_and_0x7F h7, getElem_append_spaces]

/-- The encoder truncates to six characters (40_address_codec.md R85). -/
theorem encodeAddress_take (cs : Callsign) (ssid : Byte) : encodeAddress (cs.take 6) ssid = encodeAddress cs ssid :=
  encodeAddress_congr ssid fun _ hi => padChar_take cs hi

/-- What encoding a decoded address gives (40_address_codec.md R86). -/
def reencodeAddress (a : Address) : Address := encodeAddress (decodeCallsign a).toList ((decodeSsid a).setWidth 8)

theorem reencodeAddress_char (a : Address) (i : Fin 6) : (reencodeAddress a)[i.val] = a[i.val] &&& (0xFE : Byte) := by
  rw [reencodeAddress, encodeAddress_char, padChar_decodeCallsign, charByte_of_decoded]

theorem reencodeAddress_ssid (a : Address) : (reencodeAddress a)[6] = (0x60 : Byte) ||| (a[6] &&& (0x1E : Byte)) :=
  ssidByte_of_decoded a[6]

/-- On an encoder's output decode, then encode, is the identity (40_address_codec.md R86). -/
theorem reencodeAddress_encodeAddress (cs : Callsign) (ssid : Byte) :
    reencodeAddress (encodeAddress cs ssid) = encodeAddress cs ssid := by
  apply address_ext
  · intro i
    rw [reencodeAddress_char, encodeAddress_char, and_0xFE_eq_self (charByte_bit0 _)]
  · rw [reencodeAddress_ssid, encodeAddress_ssid, ssidByte_forced]

/-- An address with the right fixed bits comes back when its chain-extension bit is put in again (40_address_codec.md R86). -/
theorem reencodeAddress_rebuilt {a : Address} (hbase : a[6].extractLsb' 5 3 = 0b011)
    (hchar : ∀ i : Fin 6, a[i.val].getLsbD 0 = false) :
    (reencodeAddress a).set 6 ((reencodeAddress a)[6] ||| (if extBit a then (0x01 : Byte) else 0x00)) = a := by
  apply address_ext
  · intro i
    rw [Vector.getElem_set_ne _ _ (by omega), reencodeAddress_char, and_0xFE_eq_self (hchar i)]
  · rw [Vector.getElem_set_self, reencodeAddress_ssid]
    exact ssidByte_rebuilt hbase

/-! The two operations. -/

/-- An absent callsign: ENCODE_ADDRESS raises InvalidArgument (40_address_codec.md R81). -/
theorem exec_encodeAddress_absent (ssid : Byte) (csLen : Nat) (s : State) :
    exec (.encodeAddress true ssid csLen) s = .next (s.setResults (.failed .invalidArgument)) := rfl

/-- A callsign present: everything ENCODE_ADDRESS does (40_address_codec.md R81). -/
theorem exec_encodeAddress_present (ssid : Byte) (csLen : Nat) (s : State) :
    exec (.encodeAddress false ssid csLen) s =
      .next (s.setResults (.address (encodeAddress (s.operands.cs.toList.take (min csLen 6)) ssid))) := rfl

/-- Everything DECODE_ADDRESS does (40_address_codec.md R83). -/
theorem exec_decodeAddress (s : State) : exec .decodeAddress s = .next (s.setResults (decodedResults s.operands.addrIn)) := rfl

/-- The characters of the callsign operand are the lanes below `min(cs_len, 6)`, then spaces (30_encoding.md R69). -/
theorem padChar_operand (s : State) (csLen : Nat) (i : Fin 6) :
    padChar (s.operands.cs.toList.take (min csLen 6)) i = operandChar s csLen i := by
  unfold operandChar
  split <;> rename_i h
  · rw [padChar_take _ h, padChar_of_lt (by simp), Vector.getElem_toList]
    rfl
  · exact padChar_of_length_le (by simp; omega)

theorem encodesOperand_encodeAddress (s : State) (csLen : Nat) (ssid : Byte) :
    EncodesOperand s csLen ssid (encodeAddress (s.operands.cs.toList.take (min csLen 6)) ssid) := by
  refine ⟨fun i => ?_, rfl⟩
  rw [encodeAddress_char, padChar_operand]
  rfl

theorem decodesTo_decodedResults (a : Address) : DecodesTo (decodedResults a) a :=
  ⟨decodeCallsign a, decodeSsid a, extBit a, rfl, getElem_decodeCallsign a, rfl, rfl⟩

/-- Settles O13: each byte code is undone by its decoding; the list form and the truncation follow character by character. -/
theorem decodeOfEncodedAddress : Obligations.DecodeOfEncodedAddress := by
  intro cs ssid
  exact ⟨decodeCallsign_encodeAddress cs ssid, decodeSsid_encodeAddress cs ssid, extBit_encodeAddress cs ssid,
    toList_decodeCallsign_encodeAddress ssid, fun _ => (encodeAddress_take cs ssid).symm⟩

/-- Settles O14: the bytes of the address encoded again; on an encoder's output, and with the bit put in again, they are those of `a`. -/
theorem encodeOfDecodedAddress : Obligations.EncodeOfDecodedAddress := by
  intro a b
  have hiff : b = a ↔ ∃ cs ssid, a = encodeAddress cs ssid := by
    constructor
    · exact fun h => ⟨_, _, h.symm⟩
    · rintro ⟨cs, ssid, rfl⟩
      exact reencodeAddress_encodeAddress cs ssid
  exact ⟨reencodeAddress_char a, reencodeAddress_ssid a, hiff, reencodeAddress_rebuilt⟩

/-- Settles O11: the row, the bytes of the encoded address, and the operation with its callsign absent and present. -/
theorem encodeAddressPacksCallsignAndSsid : Obligations.EncodeAddressPacksCallsignAndSsid :=
  ⟨rowDecodes_encodeAddress, fun cs ssid => ⟨encodeAddress_char cs ssid, encodeAddress_ssid cs ssid⟩, fun ssid csLen s =>
    ⟨exec_encodeAddress_absent ssid csLen s, _, exec_encodeAddress_present ssid csLen s, encodesOperand_encodeAddress s csLen ssid⟩⟩

/-- Settles O12: the row, and the operation's results, which are those of `decode_address`. -/
theorem decodeAddressUnpacksItsOperand : Obligations.DecodeAddressUnpacksItsOperand :=
  ⟨rowDecodes_decodeAddress, fun s => ⟨_, exec_decodeAddress s, decodesTo_decodedResults _⟩⟩

end Sys2Proof.Machine

/-! PROOFS of 41_packet_model.md: PKT_INIT, the setters and getters, the relay chain and the payload (R91 to R105). -/

namespace Sys2Proof.Machine

/-! The rows. -/

/-- A row of the operation table, from what the decoder does on the row's `op` (30_encoding.md R77). -/
theorem rowDecodes_of_opField (o : BitVec 4) {f : CommandWord → Instr}
    (h : ∀ w : CommandWord, w &&& reservedMask = 0 → w.opField = o → decode w = .ok (f w)) : RowDecodes (o.setWidth 32) f := by
  intro w hw
  obtain ⟨hr, ho⟩ := of_row hw
  exact h w hr ho

theorem rowDecodes_pktInit : RowDecodes 0x3 (fun _ => .pktInit) :=
  rowDecodes_of_opField 0x3 fun _ hr ho => by simp [decode, hr, ho]

theorem rowDecodes_setSource : RowDecodes 0x4 (fun w => .setSource w.nullField w.ssidField w.csLenField) :=
  rowDecodes_of_opField 0x4 fun _ hr ho => by simp [decode, hr, ho]

theorem rowDecodes_setDestination : RowDecodes 0x5 (fun w => .setDestination w.nullField w.ssidField w.csLenField) :=
  rowDecodes_of_opField 0x5 fun _ hr ho => by simp [decode, hr, ho]

theorem rowDecodes_addDigipeater : RowDecodes 0x6 (fun w => .addDigipeater w.nullField w.ssidField w.csLenField) :=
  rowDecodes_of_opField 0x6 fun _ hr ho => by simp [decode, hr, ho]

theorem rowDecodes_getSource : RowDecodes 0x7 (fun _ => .getSource) :=
  rowDecodes_of_opField 0x7 fun _ hr ho => by simp [decode, hr, ho]

theorem rowDecodes_getDestination : RowDecodes 0x8 (fun _ => .getDestination) :=
  rowDecodes_of_opField 0x8 fun _ hr ho => by simp [decode, hr, ho]

theorem rowDecodes_getDigipeater : RowDecodes 0x9 (fun w => .getDigipeater w.indexField) :=
  rowDecodes_of_opField 0x9 fun _ hr ho => by simp [decode, hr, ho]

theorem rowDecodes_setPayload : RowDecodes 0xA (fun _ => .setPayload) :=
  rowDecodes_of_opField 0xA fun _ hr ho => by simp [decode, hr, ho]

/-! The address a command's callsign operand encodes to. -/

/-- The address field of a callsign operand that is present (30_encoding.md R69, 40_address_codec.md R81). -/
def operandAddress (s : State) (csLen : Nat) (ssid : Byte) : Address :=
  encodeAddress (s.operands.cs.toList.take (min csLen 6)) ssid

theorem encodesOperand_operandAddress (s : State) (csLen : Nat) (ssid : Byte) :
    EncodesOperand s csLen ssid (operandAddress s csLen ssid) := encodesOperand_encodeAddress s csLen ssid

theorem extBit_operandAddress (s : State) (csLen : Nat) (ssid : Byte) : extBit (operandAddress s csLen ssid) = false :=
  extBit_encodeAddress _ ssid

/-- An empty callsign is six encoded spaces (41_packet_model.md R93). -/
theorem operandAddress_empty_char (s : State) (ssid : Byte) (i : Fin 6) : (operandAddress s 0 ssid)[i.val] = 0x40 := by
  have hspace : operandChar s 0 i = 0x20 := if_neg (by omega)
  rw [(encodesOperand_operandAddress s 0 ssid).1 i, hspace]
  rfl

theorem decodeCallsign_operandAddress (s : State) (csLen : Nat) (ssid : Byte) (i : Fin 6) :
    (decodeCallsign (operandAddress s csLen ssid))[i.val] = operandChar s csLen i &&& (0x7F : Byte) := by
  rw [operandAddress, decodeCallsign_encodeAddress, padChar_operand]

/-- The results of decoding an operand's address: its SSID's low four bits, and the chain-extension bit clear. -/
theorem decodedResults_operandAddress (s : State) (csLen : Nat) (ssid : Byte) :
    decodedResults (operandAddress s csLen ssid) =
      .decoded (decodeCallsign (operandAddress s csLen ssid)) ((ssid &&& (0x0F : Byte)).setWidth 4) false := by
  rw [decodedResults, extBit_operandAddress, operandAddress, decodeSsid_encodeAddress]

/-! Initialization (R91, R92; 43_packet_queue.md R123). -/

theorem initAddress_char (b7 : Byte) (i : Fin 6) : (initAddress b7)[i.val] = 0x40 := by fin_cases i <;> rfl

/-- Both values of `INIT_B7` leave the chain-extension bit clear (00_scope.md R9). -/
theorem extBit_initAddress {b7 : Byte} (h : b7 = 0x40 ∨ b7 = 0x60) : extBit (initAddress b7) = false := by
  rcases h with rfl | rfl <;> rfl

theorem Packet.init_digi (b7 : Byte) (j : Fin 8) : (Packet.init b7).digi[j] = initAddress b7 :=
  Vector.getElem_replicate j.isLt

/-- Settles O18: the row, and every field of the packet PKT_INIT writes; all ten addresses are `initAddress`. -/
theorem pktInitResetsEveryField : Obligations.PktInitResetsEveryField := by
  refine ⟨rowDecodes_pktInit, fun s => ⟨_, exec_pktInit s, fun i => ?_, rfl, rfl, fun j => ?_, rfl, rfl, rfl, fun _ _ => rfl, rfl,
    fun hb => ?_⟩⟩
  · refine ⟨initAddress_char _ i, initAddress_char _ i, fun j => ?_⟩
    rw [setWp_wp, Packet.init_digi]
    exact initAddress_char _ i
  · rw [setWp_wp, Packet.init_digi]
    rfl
  · refine ⟨extBit_initAddress hb, extBit_initAddress hb, fun j => ?_⟩
    rw [setWp_wp, Packet.init_digi]
    exact extBit_initAddress hb

/-- Settles O19: what PKT_INIT writes is a function of `INIT_B7` alone, and what Q_INIT writes is fixed. -/
theorem initializersAreIdempotentAndTotal : Obligations.InitializersAreIdempotentAndTotal := by
  refine ⟨fun s => ⟨_, exec_pktInit s, exec_pktInit _, fun hp => ?_⟩,
    fun s s' hp => ⟨_, _, exec_pktInit s, exec_pktInit s', ?_⟩, fun s => ⟨_, exec_qInit s, exec_qInit _, rfl, rfl⟩⟩
  · rw [setResults_wp, setWp_wp, hp]
    rfl
  · rw [setResults_wp, setResults_wp, setWp_wp, setWp_wp, hp]

/-! The setters and the getters of source and destination (R93 to R96, R100, R101). -/

/-- An absent callsign: SET_SOURCE changes nothing (R93). -/
theorem exec_setSource_absent (ssid : Byte) (csLen : Nat) (s : State) :
    exec (.setSource true ssid csLen) s = .next (s.setResults .done) := rfl

/-- A callsign present: everything SET_SOURCE does (R94). -/
theorem exec_setSource_present (ssid : Byte) (csLen : Nat) (s : State) :
    exec (.setSource false ssid csLen) s =
      .next ((s.setWp { s.wp with src := operandAddress s csLen ssid }).setResults .done) := rfl

/-- An absent callsign: SET_DESTINATION changes nothing (R93). -/
theorem exec_setDestination_absent (ssid : Byte) (csLen : Nat) (s : State) :
    exec (.setDestination true ssid csLen) s = .next (s.setResults .done) := rfl

/-- A callsign present: everything SET_DESTINATION does (R96). -/
theorem exec_setDestination_present (ssid : Byte) (csLen : Nat) (s : State) :
    exec (.setDestination false ssid csLen) s =
      .next ((s.setWp { s.wp with dst := operandAddress s csLen ssid }).setResults .done) := rfl

/-- Everything GET_SOURCE does (R100). -/
theorem exec_getSource (s : State) : exec .getSource s = .next (s.setResults (decodedResults s.wp.src)) := rfl

/-- Everything GET_DESTINATION does (R101). -/
theorem exec_getDestination (s : State) : exec .getDestination s = .next (s.setResults (decodedResults s.wp.dst)) := rfl

/-- Settles O21: the row, and SET_SOURCE with its callsign absent and present. -/
theorem setSourceStoresTheEncodedCallsign : Obligations.SetSourceStoresTheEncodedCallsign :=
  ⟨rowDecodes_setSource, fun ssid csLen s => ⟨exec_setSource_absent ssid csLen s, _, exec_setSource_present ssid csLen s,
    encodesOperand_operandAddress s csLen ssid, extBit_operandAddress s csLen ssid⟩⟩

/-- Settles O22: the row, and SET_DESTINATION with its callsign absent and present. -/
theorem setDestinationStoresTheEncodedCallsign : Obligations.SetDestinationStoresTheEncodedCallsign :=
  ⟨rowDecodes_setDestination, fun ssid csLen s => ⟨exec_setDestination_absent ssid csLen s, _,
    exec_setDestination_present ssid csLen s, encodesOperand_operandAddress s csLen ssid, extBit_operandAddress s csLen ssid⟩⟩

/-- Settles O26: the row, and the results, whose bit is the stored one, 0 by the invariant. -/
theorem getSourceDecodesTheSource : Obligations.GetSourceDecodesTheSource :=
  ⟨rowDecodes_getSource, fun s => ⟨_, exec_getSource s, decodesTo_decodedResults _, fun h => congrArg some h.srcExt⟩⟩

/-- Settles O27: the row, and the results, whose bit is the stored one, 0 by the invariant. -/
theorem getDestinationDecodesTheDestination : Obligations.GetDestinationDecodesTheDestination :=
  ⟨rowDecodes_getDestination, fun s => ⟨_, exec_getDestination s, decodesTo_decodedResults _, fun h => congrArg some h.dstExt⟩⟩

/-- Settles O23: a getter decodes the address the setter stored, and an absent callsign stores none. -/
theorem getReturnsWhatSetStored : Obligations.GetReturnsWhatSetStored := by
  intro ssid csLen s
  exact ⟨⟨_, _, _, exec_setSource_present ssid csLen s, exec_getSource _, decodedResults_operandAddress s csLen ssid,
      decodeCallsign_operandAddress s csLen ssid⟩,
    ⟨_, _, _, exec_setDestination_present ssid csLen s, exec_getDestination _, decodedResults_operandAddress s csLen ssid,
      decodeCallsign_operandAddress s csLen ssid⟩,
    ⟨_, _, _, exec_setSource_absent ssid csLen s, exec_getSource _, exec_getSource s, rfl⟩,
    ⟨_, _, _, exec_setDestination_absent ssid csLen s, exec_getDestination _, exec_getDestination s, rfl⟩⟩

/-! The relay chain (R98, R103). -/

/-- An absent callsign: ADD_DIGIPEATER raises InvalidArgument (R93). -/
theorem exec_addDigipeater_absent (ssid : Byte) (csLen : Nat) (s : State) :
    exec (.addDigipeater true ssid csLen) s = .next (s.setResults (.failed .invalidArgument)) := rfl

/-- Eight relays present: ADD_DIGIPEATER raises RelayChainFull (R98). -/
theorem exec_addDigipeater_full (ssid : Byte) (csLen : Nat) {s : State} (h : s.wp.ndigi.val = 8) :
    exec (.addDigipeater false ssid csLen) s = .next (s.setResults (.failed .relayChainFull)) := by
  simp only [exec, execAddDigipeater, callsignOperand, Bool.false_eq_true, if_false, Packet.addDigipeater_full _ _ _ h]
  rfl

/-- The relay slots with a relay of address `a` appended at slot `n` (R98). -/
def appendRelay (digi : Vector Address 8) (n : Nat) (h : n < 8) (a : Address) : Vector Address 8 :=
  (Packet.clearPriorExt digi n).set n (setExt a)

/-- Room for a relay: everything ADD_DIGIPEATER does (R98). -/
theorem exec_addDigipeater_ok (ssid : Byte) (csLen : Nat) {s : State} (h : s.wp.ndigi.val < 8) :
    exec (.addDigipeater false ssid csLen) s =
      .next ((s.setWp { s.wp with digi := appendRelay s.wp.digi s.wp.ndigi h (operandAddress s csLen ssid)
                                  ndigi := ⟨s.wp.ndigi + 1, by omega⟩ }).setResults (.count (s.wp.ndigi + 1))) := by
  simp only [exec, execAddDigipeater, callsignOperand, Bool.false_eq_true, if_false, Packet.addDigipeater_ok _ _ _ h]
  rfl

/-- Each slot after a relay is appended: the new one marked, the one before it unmarked, every other as it was. -/
theorem getElem_appendRelay (digi : Vector Address 8) {n : Nat} (h : n < 8) (a : Address) (j : Fin 8) :
    (appendRelay digi n h a)[j] = if j.val = n then setExt a else if j.val + 1 = n then clearExt digi[j] else digi[j] := by
  rw [← Packet.getElem_clearPriorExt digi n h.le j, appendRelay, Fin.getElem_fin, Vector.getElem_set]
  simp only [eq_comm (a := n), Fin.getElem_fin]

/-- Where the chain's last relay alone was marked, its new last relay alone is marked (10_state.md R26). -/
theorem extBit_appendRelay {digi : Vector Address 8} {n : Nat} (h : n < 8) (a : Address)
    (hchain : ∀ i : Fin 8, i.val < n → extBit digi[i] = decide (i.val + 1 = n)) {j : Fin 8} (hj : j.val < n + 1) :
    extBit (appendRelay digi n h a)[j] = decide (j.val + 1 = n + 1) := by
  rw [getElem_appendRelay]
  split
  case isTrue hnew => simp [hnew]
  case isFalse hnew =>
    split
    case isTrue hprior => simp [hnew]
    case isFalse hprior =>
      rw [hchain j (by omega)]
      simp [hnew, hprior]

/-- Settles O24: the row, the two conditions, and with room for a relay the slots of the chain one by one. -/
theorem addDigipeaterAppendsARelay : Obligations.AddDigipeaterAppendsARelay := by
  refine ⟨rowDecodes_addDigipeater, fun ssid csLen s => ⟨exec_addDigipeater_absent ssid csLen s,
    exec_addDigipeater_full ssid csLen, fun h => ⟨_, _, exec_addDigipeater_ok ssid csLen h, rfl, fun j hj => ?_, fun j hj => ?_,
    fun j hnew hprior => ?_, fun hinv j => extBit_appendRelay h _ hinv.chain⟩⟩⟩
  · refine ⟨_, encodesOperand_operandAddress s csLen ssid, ?_⟩
    rw [getElem_appendRelay, if_pos hj]
    rfl
  · rw [getElem_appendRelay, if_neg (by omega), if_pos hj]
    rfl
  · rw [getElem_appendRelay, if_neg hnew, if_neg hprior]

/-- Settles O20: the absent callsign of each operation; the empty one encodes as six spaces, the same for both setters. -/
theorem absentCallsignPolicy : Obligations.AbsentCallsignPolicy := by
  intro ssid csLen s
  exact ⟨exec_setSource_absent ssid csLen s, exec_setDestination_absent ssid csLen s, exec_addDigipeater_absent ssid csLen s, _,
    exec_setSource_present ssid 0 s, exec_setDestination_present ssid 0 s, operandAddress_empty_char s ssid⟩

/-- `get_digipeater` of a relay of the chain (R103). -/
theorem Packet.getDigipeater_ok (p : Packet) (eqCountFails : Bool) {i : Fin 8} (h : i.val < p.ndigi.val) :
    p.getDigipeater eqCountFails i = .ok p.digi[i] :=
  dif_pos ⟨i.isLt, .inl h⟩

/-- `get_digipeater` at the count and above, under the default parameter (R103). -/
theorem Packet.getDigipeater_outOfRange (p : Packet) {index : Nat} (h : p.ndigi.val ≤ index) :
    p.getDigipeater true index = .error .indexOutOfRange :=
  dif_neg fun ⟨_, hc⟩ => hc.elim (by omega) (by simp)

/-- GET_DIGIPEATER where `get_digipeater` fails. -/
theorem exec_getDigipeater_error {s : State} {index : Nat} {c : Condition}
    (h : s.wp.getDigipeater s.params.digiIndexEqCountFails index = .error c) :
    exec (.getDigipeater index) s = .next (s.setResults (.failed c)) := by
  simp only [exec, execGetDigipeater, h]
  rfl

/-- GET_DIGIPEATER where `get_digipeater` gives a relay. -/
theorem exec_getDigipeater_ok {s : State} {index : Nat} {a : Address}
    (h : s.wp.getDigipeater s.params.digiIndexEqCountFails index = .ok a) :
    exec (.getDigipeater index) s = .next (s.setResults (decodedResults a)) := by
  simp only [exec, execGetDigipeater, h]
  rfl

/-- Settles O28: the row, an index at the count or above, and a relay of the chain, whose bit the invariant gives. -/
theorem getDigipeaterDecodesARelay : Obligations.GetDigipeaterDecodesARelay := by
  refine ⟨rowDecodes_getDigipeater, fun index s hparam => ⟨fun hout => ?_, ?_⟩⟩
  · refine exec_getDigipeater_error ?_
    rw [hparam]
    exact s.wp.getDigipeater_outOfRange hout
  · rintro i rfl hlt
    exact ⟨_, exec_getDigipeater_ok (s.wp.getDigipeater_ok _ hlt), decodesTo_decodedResults _,
      fun h => congrArg some (h.chain i hlt)⟩

/-! The payload (R105). -/

theorem length_payloadOperand (o : Operands) : (payloadOperand o).length = min o.plIn.length 256 := by
  simp [payloadOperand, payloadLength]

theorem getElem?_payloadOperand (o : Operands) {i : Nat} (h : i < min o.plIn.length 256) : (payloadOperand o)[i]? = o.plIn[i]? :=
  List.getElem?_take_of_lt h

/-- `set_payload` of at most 256 bytes writes all of them and records their number (R105). -/
theorem Packet.setPayload_of_length_le (p : Packet) {bytes : List Byte} (h : bytes.length ≤ 256) :
    p.setPayload bytes = { p with payload := p.payload.writeBytes 0 bytes, plen := ⟨bytes.length, by omega⟩ } := by
  have hmin : min bytes.length Config.maxPayload = bytes.length := min_eq_left h
  have hplen : Fin.ofNat 257 bytes.length = ⟨bytes.length, by omega⟩ := Fin.ext (Nat.mod_eq_of_lt (by omega))
  simp only [setPayload, hmin, List.take_length, hplen]

/-- Settles O30: SET_PAYLOAD is one `MemWrite` of the operand's first 256 bytes, which a read sees below its length only. -/
theorem setPayloadCopiesAndTruncates : Obligations.SetPayloadCopiesAndTruncates := by
  refine ⟨rowDecodes_setPayload, fun s hwf => ?_⟩
  have hlen := length_payloadOperand s.operands
  have hle : 0 + (payloadOperand s.operands).length ≤ 256 := by omega
  have hexec := exec_setPayload s
  rw [Packet.setPayload_of_length_le _ (by omega)] at hexec
  refine ⟨_, _, hexec, hlen, fun i hi => ?_, fun i hi => ?_, Memory.wf_writeBytes hwf hle⟩
  · rw [Memory.read_writeBytes i hwf hle, if_pos i.zero_le, ← getElem?_payloadOperand _ (hlen ▸ hi)]
    simp [hi]
  · rw [Memory.read_writeBytes i hwf hle, if_pos i.zero_le, List.getElem?_eq_none (by simpa using hi)]
    rfl

end Sys2Proof.Machine

/-! PROOFS of 42_frame_builder.md: the chain-extension bit (R111), the frame by offset (R112, R114, R115), the length check (R113). -/

namespace Sys2Proof.Machine

/-! The chain-extension bit (R111). -/

/-- Bits 7..1 of byte 6 are untouched by a write of the bit. -/
theorem withExt_high (a : Address) (b : Bool) : (withExt a b)[6].extractLsb' 1 7 = a[6].extractLsb' 1 7 := by
  rw [withExt_getElem_six]
  apply BitVec.eq_of_getLsbD_eq
  intro j hj
  cases b <;> interval_cases j <;> simp

/-- Settles O16: byte 6 has the new bit and its other seven bits, and the six bytes before it are those of the address. -/
theorem withExtReplacesOneBit : Obligations.WithExtReplacesOneBit := fun a b =>
  ⟨extBit_withExt a b, fun i => withExt_getElem_of_lt a b i i.isLt, withExt_high a b⟩

/-! The length check (R113, R115). -/

/-- At most eight relays and 256 payload bytes (R115). -/
theorem Packet.frameLength_range (p : Packet) : 16 ≤ p.frameLength ∧ p.frameLength ≤ 328 := by
  rw [Packet.frameLength_eq]
  omega

/-- A frame that fits is built. -/
theorem exec_buildFrame_succeeds {s : State} (h : s.wp.frameLength ≤ s.params.maxFrameLen) :
    ∃ t, exec (.buildFrame false) s = .next t ∧ t.succeeded := ⟨_, exec_buildFrame_ok h, rfl⟩

/-- Settles O33: the check compares the frame's length, at most 328, with the bound. -/
theorem lengthCheckRejectsOnlyOverLongFrames : Obligations.LengthCheckRejectsOnlyOverLongFrames := by
  intro s
  rw [← Packet.frameLength_eq]
  exact ⟨fun hmax => exec_buildFrame_succeeds (s.wp.frameLength_range.2.trans hmax), exec_buildFrame_succeeds, exec_buildFrame_long⟩

/-! The frame by offset (R112, R114). -/

theorem rowDecodes_buildFrame : RowDecodes 0xB (fun w => .buildFrame w.nullField) :=
  rowDecodes_of_opField 0xB fun _ hr ho => by simp [decode, hr, ho]

/-- An absent packet: BUILD_FRAME raises InvalidArgument (R112). -/
theorem exec_buildFrame_absent (s : State) : exec (.buildFrame true) s = .next (s.setResults (.failed .invalidArgument)) := rfl

namespace Packet

/-- The whole frame of a packet: the body, then its checksum (R112). -/
def frame (p : Packet) : List Byte := withChecksum p.frameBody

/-- The checked length counts the body and the two bytes of the checksum (R115). -/
theorem frameLength_eq_add_two (p : Packet) : p.frameLength = p.frameBody.length + 2 := by
  rw [frameLength_eq, length_frameBody]
  omega

theorem length_frame (p : Packet) : p.frame.length = p.frameLength := by
  rw [frame, length_withChecksum, frameLength_eq_add_two]

/-- The frame before its checksum is the body. -/
theorem take_frame (p : Packet) : p.frame.take p.frameBody.length = p.frameBody := take_withChecksum p.frameBody

/-- Byte `k` of address block `i` of the frame. -/
theorem getElem?_frame_block (p : Packet) {i : Nat} (k : Fin 7) (hi : i < p.ndigi.val + 2) :
    p.frame[7 * i + k.val]? = (p.blocks[i]?).map (fun a => a[k]) := by
  rw [frame, getElem?_withChecksum (by rw [length_frameBody]; omega), getElem?_frameBody_block p i k k.isLt hi]
  rfl

/-- Byte `k` of relay `i` of the frame. -/
theorem getElem?_frame_relay (p : Packet) {i : Fin 8} (k : Fin 7) (hi : i.val < p.ndigi.val) :
    p.frame[14 + 7 * i.val + k.val]? = some (withExt p.digi[i] (decide (i.val + 1 = p.ndigi.val)))[k] := by
  have hblock : p.blocks[i.val + 2]? = some (withExt p.digi[i] (decide (i.val + 1 = p.ndigi.val))) := p.getElem?_relayBlocks i hi
  rw [show 14 + 7 * i.val = 7 * (i.val + 2) by omega, getElem?_frame_block p k (by omega), hblock]
  rfl

/-- Payload byte `j` of the frame. -/
theorem getElem?_frame_payload (p : Packet) {j : Nat} (hj : j < p.plen.val) :
    p.frame[14 + 7 * p.ndigi.val + j]? = some (p.payload.read j) := by
  rw [frame, getElem?_withChecksum (by rw [length_frameBody]; omega), getElem?_frameBody_payload p j hj]

/-- The two bytes after the body are the checksum of the body, low byte first (R114). -/
theorem getElem?_withChecksum_checksum (b : List Byte) :
    (withChecksum b)[b.length]? = some ((Config.checksum b).extractLsb' 0 8) ∧
      (withChecksum b)[b.length + 1]? = some ((Config.checksum b).extractLsb' 8 8) := by
  simp [withChecksum]

/-- The last two bytes of the frame are the checksum of all bytes before them, low byte first (R114). -/
theorem getElem?_frame_checksum (p : Packet) :
    p.frame[p.frameLength - 2]? = some ((Config.checksum (p.frame.take (p.frameLength - 2))).extractLsb' 0 8) ∧
      p.frame[p.frameLength - 1]? = some ((Config.checksum (p.frame.take (p.frameLength - 2))).extractLsb' 8 8) := by
  rw [frameLength_eq_add_two, Nat.add_sub_cancel, take_frame]
  exact getElem?_withChecksum_checksum p.frameBody

end Packet

/-- Settles O32: the row, the two conditions, and the frame block by block. -/
theorem buildFrameEmitsTheFrame : Obligations.BuildFrameEmitsTheFrame := by
  refine ⟨rowDecodes_buildFrame, fun s => ⟨exec_buildFrame_absent s, exec_buildFrame_long, fun hfit => ⟨s.wp.frame, ?_,
    s.wp.length_frame, s.wp.frameLength_range.1, s.wp.frameLength_range.2, fun k => ?_, fun k => ?_,
    fun i k => s.wp.getElem?_frame_relay k, fun j => s.wp.getElem?_frame_payload, s.wp.getElem?_frame_checksum⟩⟩⟩
  · rw [exec_buildFrame_ok hfit, ← Packet.frame, Results.framed, s.wp.length_frame]
    rfl
  · rw [← Nat.zero_add k.val]
    exact s.wp.getElem?_frame_block (i := 0) k (by omega)
  · exact s.wp.getElem?_frame_block (i := 1) k (by omega)

/-! The frame of a packet that meets the invariant (R117). -/

/-- Forcing the relay bits changes nothing where the chain already carries them (R117). -/
theorem Packet.relayBlocks_eq_of_inv {p : Packet} (h : p.Inv) : p.relayBlocks = p.digi.toList.take p.ndigi := by
  apply List.ext_getElem?
  intro i
  by_cases hi : i < p.ndigi.val
  · have hget := p.getElem?_relayBlocks ⟨i, by omega⟩ hi
    rw [withExt_eq_self (h.chain ⟨i, by omega⟩ hi)] at hget
    simp [hget, List.getElem?_take_of_lt hi]
  · simp [hi]

/-- Under the invariant the body is the stored blocks but for the source's bit, then the payload (R117). -/
theorem Packet.frameBody_eq_of_inv {p : Packet} (h : p.Inv) :
    p.frameBody = p.dst.toList ++ (withExt p.src (decide (p.ndigi.val = 0))).toList ++
      (p.digi.toList.take p.ndigi).flatMap (·.toList) ++ (List.range p.plen).map p.payload.read := by
  simp only [frameBody, relayBlocks_eq_of_inv h, Memory.readBytes, Nat.zero_add]

/-- Settles O35: the frame before the checksum is the body, whose relay blocks are the stored ones. -/
theorem emittedRelaysAreTheStoredOnes : Obligations.EmittedRelaysAreTheStoredOnes := by
  intro s hinv hfit
  rw [← Packet.frameLength_eq] at hfit
  refine ⟨_, _, exec_buildFrame_ok hfit, rfl, hinv.dstExt, ?_⟩
  rw [← Packet.length_frameBody, Packet.take_withChecksum, Packet.frameBody_eq_of_inv hinv]

end Sys2Proof.Machine

/-! PROOFS of 43_packet_queue.md: the three operations (R122, R124, R127), the full test and the count (R125, R131), and that the
queue is first in, first out (R130). -/

namespace Sys2Proof.Machine

/-! The three rows. -/

theorem rowDecodes_qInit : RowDecodes 0xC (fun _ => .qInit) :=
  rowDecodes_of_opField 0xC fun _ hr ho => by simp [decode, hr, ho]

theorem rowDecodes_qPush : RowDecodes 0xD (fun _ => .qPush) :=
  rowDecodes_of_opField 0xD fun _ hr ho => by simp [decode, hr, ho]

theorem rowDecodes_qPop : RowDecodes 0xE (fun _ => .qPop) :=
  rowDecodes_of_opField 0xE fun _ hr ho => by simp [decode, hr, ho]

/-! The integers the indices stand for. -/

theorem indexValue_eq_neg_one_iff (x : QIndex) : indexValue x = -1 ↔ x = none := by
  cases x with
  | none => simp
  | some i => simp

theorem indexValue_eq_val_iff (x : QIndex) (f : Fin 10) : indexValue x = f.val ↔ x = some f := by
  cases x with
  | none => simp
  | some i => simp [Fin.ext_iff]

/-- The next slot is the remainder of the spec, from -1 too (44_laws_and_control.md R170). -/
theorem nextSlot_val (x : QIndex) : ((nextSlot x).val : Int) = (indexValue x + 1) % 10 := by
  cases x with
  | none => rfl
  | some i => simp

namespace Queue

theorem isFull_iff (q : Queue) :
    q.isFull = true ↔ indexValue q.front = indexValue q.rear + 1 ∨ (indexValue q.front = 0 ∧ indexValue q.rear = 9) :=
  decide_eq_true_iff

/-- The first insertion sets `FRONT` to 0, any other leaves it (R124). -/
theorem indexValue_pushed_front (q : Queue) (p : Packet) :
    indexValue (q.pushed p).front = if indexValue q.front = -1 then 0 else indexValue q.front := by
  cases hf : q.front <;> simp [pushed_front, isEmpty, hf]

/-- A push writes the slot after `REAR` and no other (R124). -/
theorem getElem_pushed_slot (q : Queue) (p : Packet) (j : Fin 10) :
    (q.pushed p).slot[j] = if (j.val : Int) = (indexValue q.rear + 1) % 10 then some p else q.slot[j] := by
  rw [← nextSlot_val, pushed_slot, Fin.getElem_fin, Vector.getElem_set]
  simp only [eq_comm (a := j.val), Nat.cast_inj, Fin.getElem_fin]

/-- Removing the last resident packet resets both indices (R127). -/
theorem popped_of_last {q : Queue} (h : q.front = q.rear) : q.popped = q.init := if_pos h

/-- Removing any other packet advances `FRONT` only (R127). -/
theorem popped_of_more {q : Queue} (h : q.front ≠ q.rear) : q.popped = { q with front := some (nextSlot q.front) } := if_neg h

/-- With one packet resident, its slot is both `FRONT` and `REAR`. -/
theorem front_eq_rear_of_count_one {q : Queue} {f r : Fin 10} (hf : q.front = some f) (hr : q.rear = some r) (h : q.count = 1) :
    q.front = q.rear := by
  rw [count_some hf hr] at h
  rw [hf, hr, Option.some_inj, Fin.ext_iff]
  omega

theorem count_pushed {q : Queue} (p : Packet) (h : q.front = none ↔ q.rear = none) (hn : q.isFull = false) :
    (q.pushed p).count = q.count + 1 := by
  simpa using congrArg List.length (contents_pushed p h hn)

theorem count_popped {q : Queue} {f r : Fin 10} (hf : q.front = some f) (hr : q.rear = some r) :
    q.popped.count + 1 = q.count := by
  simpa using (congrArg List.length (contents_popped hf hr)).symm

end Queue

/-- Settles O38: the indices become -1 and nothing else is written, so a pop finds no front. -/
theorem qInitEmptiesTheIndices : Obligations.QInitEmptiesTheIndices :=
  ⟨rowDecodes_qInit, fun s => ⟨_, exec_qInit s, rfl, rfl, rfl, exec_qPop_empty rfl⟩⟩

/-- Settles O39: the full test on the indices decides; a push then writes one slot and both indices. -/
theorem qPushCopiesThePacketIntoTheNextSlot : Obligations.QPushCopiesThePacketIntoTheNextSlot := by
  refine ⟨rowDecodes_qPush, fun s => ⟨fun hfull => exec_qPush_full (s.q.isFull_iff.2 hfull), fun hroom => ?_⟩⟩
  have hnot : s.q.isFull = false := by simpa using s.q.isFull_iff.not.2 hroom
  exact ⟨_, exec_qPush_ok hnot, nextSlot_val s.q.rear, s.q.indexValue_pushed_front s.wp, s.q.getElem_pushed_slot s.wp⟩

/-- Settles O40: the packet is read at `FRONT`, no slot is written, and the indices are those of `popped`. -/
theorem qPopCopiesTheFrontPacketOut : Obligations.QPopCopiesTheFrontPacketOut := by
  refine ⟨rowDecodes_qPop, fun s => ⟨fun hempty => exec_qPop_empty ((indexValue_eq_neg_one_iff _).1 hempty), fun f hfront => ?_⟩⟩
  have hf : s.q.front = some f := (indexValue_eq_val_iff _ f).1 hfront
  refine ⟨_, _, exec_qPop_ok hf, fun x hx => ?_, s.q.popped_slot, fun hlast => ?_, fun hmore => ?_⟩
  · simp [Queue.readSlot, hx]
  · rw [Queue.popped_of_last hlast]
    exact ⟨rfl, rfl⟩
  · rw [Queue.popped_of_more hmore, hf]
    exact ⟨nextSlot_val (some f), rfl⟩

/-- Settles O41: on the two indices, the full test and ten resident packets are the same arithmetic. -/
theorem fullTestIsExact : Obligations.FullTestIsExact := fun _ => Queue.isFull_iff_count

/-! The count (R131). -/

theorem not_succeeded_failed (s : State) (c : Condition) : ¬ (s.setResults (.failed c)).succeeded := by
  simp [State.succeeded]

/-- Q_PUSH onto an empty queue starts the indices at slot 0. -/
theorem exec_qPush_of_empty {s : State} (hf : s.q.front = none) (hr : s.q.rear = none) :
    ∃ u, exec .qPush s = .next u ∧ indexValue u.q.front = 0 ∧ indexValue u.q.rear = 0 :=
  ⟨_, exec_qPush_ok (Queue.not_isFull_none hf hr), by simp [Queue.indexValue_pushed_front, hf], by simp [hr]⟩

theorem exec_qPush_count {s : State} (h : s.q.front = none ↔ s.q.rear = none) :
    ∃ t, exec .qPush s = .next t ∧ (t.succeeded → t.q.count = s.q.count + 1) ∧ (¬ t.succeeded → t.q.count = s.q.count) := by
  cases hq : s.q.isFull with
  | true => exact ⟨_, exec_qPush_full hq, fun hok => absurd hok (not_succeeded_failed _ _), fun _ => rfl⟩
  | false => exact ⟨_, exec_qPush_ok hq, fun _ => Queue.count_pushed s.wp h hq, fun hno => absurd rfl hno⟩

/-- Settles O42: the count is the length of the list view; a pop of the only packet leaves an empty queue. -/
theorem countLaw : Obligations.CountLaw := by
  refine fun s h => ⟨exec_qPush_count h, ?_⟩
  cases hf : s.q.front with
  | none =>
    exact ⟨_, exec_qPop_empty hf, fun hok => absurd hok (not_succeeded_failed _ _), fun _ => rfl,
      fun hok => absurd hok (not_succeeded_failed _ _)⟩
  | some f =>
    obtain ⟨r, hr⟩ := Option.ne_none_iff_exists'.1 (h.not.1 (by simp [hf]))
    refine ⟨_, exec_qPop_ok hf, fun _ => Queue.count_popped hf hr, fun hno => absurd rfl hno, fun _ hone => ?_⟩
    rw [Queue.popped_of_last (Queue.front_eq_rear_of_count_one hf hr hone)]
    exact ⟨rfl, rfl, exec_qPush_of_empty rfl rfl⟩

/-! What an instruction and a step can do to the queue. -/

/-- Everything an instruction can do to the queue, and that it answers a next state and leaves the commands to come (10_state.md R37):
it leaves the queue alone, and then it is no pop that succeeded, or it is one of the three queue operations. -/
theorem exec_queue_cases (i : Instr) (s : State) :
    ∃ t, exec i s = .next t ∧ t.pending = s.pending ∧
      ((t.q = s.q ∧ ¬ (i = .qPop ∧ t.succeeded)) ∨ (i = .qInit ∧ t.q = s.q.init) ∨
        (i = .qPush ∧ s.q.isFull = false ∧ t.q = s.q.pushed s.wp) ∨
        (i = .qPop ∧ t.succeeded ∧ s.q.front ≠ none ∧ t.q = s.q.popped)) := by
  by_cases hi : i = .qInit
  · subst hi
    exact ⟨_, exec_qInit s, rfl, .inr (.inl ⟨rfl, rfl⟩)⟩
  by_cases hu : i = .qPush
  · subst hu
    cases hq : s.q.isFull with
    | true => exact ⟨_, exec_qPush_full hq, rfl, .inl ⟨rfl, by simp⟩⟩
    | false => exact ⟨_, exec_qPush_ok hq, rfl, .inr (.inr (.inl ⟨rfl, rfl, rfl⟩))⟩
  by_cases ho : i = .qPop
  · subst ho
    cases hf : s.q.front with
    | none => exact ⟨_, exec_qPop_empty hf, rfl, .inl ⟨rfl, fun hpop => not_succeeded_failed _ _ hpop.2⟩⟩
    | some f => exact ⟨_, exec_qPop_ok hf, rfl, .inr (.inr (.inr ⟨rfl, rfl, by simp, rfl⟩))⟩
  obtain ⟨p, r, e⟩ := exec_writes_wp_of_not_queue i s hi hu ho
  exact ⟨_, e, rfl, .inl ⟨rfl, fun hpop => ho hpop.1⟩⟩

/-- What R130 asks of a state: both indices are -1 or both are slot numbers (10_state.md R31), and no Q_INIT is to come. -/
structure State.KeepsPackets (s : State) : Prop where
  sentinel : s.q.front = none ↔ s.q.rear = none
  noQInit : ∀ c ∈ s.pending, decode c.word ≠ .ok .qInit

/-- Without Q_INIT an instruction takes one packet off the head of the list view, exactly where it is a pop that succeeds, or leaves
every packet in its place. -/
theorem exec_contents {i : Instr} {s : State} (hi : i ≠ .qInit) (h : s.KeepsPackets) :
    ∃ t, exec i s = .next t ∧ t.KeepsPackets ∧
      ((¬ (i = .qPop ∧ t.succeeded) ∧ s.q.contents <+: t.q.contents) ∨
        ((i = .qPop ∧ t.succeeded) ∧ ∃ o, s.q.contents = o :: t.q.contents)) := by
  obtain ⟨t, e, hpending, ⟨hq, hno⟩ | ⟨hinit, -⟩ | ⟨rfl, hroom, hq⟩ | ⟨rfl, hok, hne, hq⟩⟩ := exec_queue_cases i s
  · exact ⟨t, e, ⟨hq ▸ h.sentinel, hpending ▸ h.noQInit⟩, .inl ⟨hno, by rw [hq]⟩⟩
  · exact absurd hinit hi
  · have hsentinel : t.q.front = none ↔ t.q.rear = none := by
      rw [hq]
      simp [Queue.pushed_sentinel]
    have happend : s.q.contents <+: t.q.contents := ⟨[some s.wp], hq ▸ (Queue.contents_pushed s.wp h.sentinel hroom).symm⟩
    exact ⟨t, e, ⟨hsentinel, hpending ▸ h.noQInit⟩, .inl ⟨by simp, happend⟩⟩
  · obtain ⟨f, hf⟩ := Option.ne_none_iff_exists'.1 hne
    obtain ⟨r, hr⟩ := Option.ne_none_iff_exists'.1 (h.sentinel.not.1 hne)
    have hsentinel : t.q.front = none ↔ t.q.rear = none := hq ▸ Queue.popped_sentinel (by simp [hr])
    exact ⟨t, e, ⟨hsentinel, hpending ▸ h.noQInit⟩, .inr ⟨⟨rfl, hok⟩, _, hq ▸ Queue.contents_popped hf hr⟩⟩

theorem poppedBy_nil {s t : State} (h : s.pending = []) : poppedBy s t = false := by simp [poppedBy, h]

theorem poppedBy_of_ok {s t : State} {c : Command} {rest : List Command} {i : Instr} (h : s.pending = c :: rest)
    (hd : decode c.word = .ok i) : poppedBy s t = true ↔ i = .qPop ∧ t.succeeded := by
  simp [poppedBy, h, hd, State.succeeded]

theorem poppedBy_of_error {s t : State} {c : Command} {rest : List Command} {e : DecodeError} (h : s.pending = c :: rest)
    (hd : decode c.word = .error e) : poppedBy s t = false := by
  simp [poppedBy, h, hd]

/-- Taking a command writes no queue and leaves fewer commands to come. -/
theorem State.KeepsPackets.take {s : State} {c : Command} {rest : List Command} (h : s.KeepsPackets) (hp : s.pending = c :: rest)
    (o : Operands) : (s.take o rest).KeepsPackets :=
  ⟨h.sentinel, fun d hd => h.noQInit d (hp ▸ List.mem_cons_of_mem c hd)⟩

/-- Without Q_INIT a step takes one packet off the head of the list view, exactly where it is a pop that succeeds, or leaves every packet
in its place. -/
theorem step_contents {s : State} (h : s.KeepsPackets) :
    ∃ t, step s = .next t ∧ t.KeepsPackets ∧
      ((poppedBy s t = false ∧ s.q.contents <+: t.q.contents) ∨
        (poppedBy s t = true ∧ ∃ o, s.q.contents = o :: t.q.contents)) := by
  cases hp : s.pending with
  | nil => exact ⟨s, step_nil hp, h, .inl ⟨poppedBy_nil hp, by rfl⟩⟩
  | cons c rest =>
    have htake := h.take hp c.operands
    cases hd : decode c.word with
    | error e =>
      exact ⟨_, step_error hp hd, ⟨htake.sentinel, htake.noQInit⟩, .inl ⟨poppedBy_of_error hp hd, by rfl⟩⟩
    | ok i =>
      have hi : i ≠ .qInit := fun e => h.noQInit c (by simp [hp]) (e ▸ hd)
      obtain ⟨t, e, ht, hq⟩ := exec_contents hi htake
      rw [← poppedBy_of_ok hp hd, Bool.not_eq_true] at hq
      exact ⟨t, (step_ok hp hd).trans e, ht, hq⟩

/-- Without Q_INIT a run takes as many packets off the head of the list view as pops succeed in it, and leaves the others in their
places. -/
theorem run_contents (n : Nat) {s : State} (h : s.KeepsPackets) :
    ∃ t, run n s = .next t ∧ t.KeepsPackets ∧ s.q.contents.drop (popsDuring n s) <+: t.q.contents := by
  induction n generalizing s with
  | zero => exact ⟨s, rfl, h, by rfl⟩
  | succ n ih =>
    obtain ⟨s', e, hs', hq⟩ := step_contents h
    obtain ⟨t, er, ht, hrest⟩ := ih hs'
    refine ⟨t, (run_succ n e).trans er, ht, ?_⟩
    rw [popsDuring_succ n e]
    obtain ⟨hno, hkeep⟩ | ⟨hpop, o, hhead⟩ := hq
    · rw [hno, if_neg Bool.false_ne_true, Nat.zero_add]
      exact (hkeep.drop _).trans hrest
    · rw [hpop, if_pos rfl, Nat.add_comm, hhead, List.drop_succ_cons]
      exact hrest

/-- A step that takes Q_POP with a packet at the head of the list view succeeds and sets `WP` to that packet. -/
theorem step_qPop_head {s : State} {p : Packet} {rest : List (Option Packet)} (h : s.q.front = none ↔ s.q.rear = none)
    (hnext : NextIs .qPop s) (hq : s.q.contents = some p :: rest) : ∃ t, step s = .next t ∧ t.succeeded ∧ t.wp = p := by
  obtain ⟨c, cs, hp, hd⟩ := hnext
  obtain ⟨t, e, ⟨hempty, -⟩ | ⟨o, tail, hcons, hok, -, hwp⟩⟩ := exec_qPop_contents (s := s.take c.operands cs) h
  · exact absurd (hq.symm.trans hempty) (List.cons_ne_nil _ _)
  · have hhead : o = some p := (List.cons.inj (hcons.symm.trans hq)).1
    exact ⟨t, (step_ok hp hd).trans e, hok, hwp p hhead⟩

/-- A step that takes Q_PUSH with fewer than ten packets resident succeeds and appends `WP` to the list view. -/
theorem step_qPush_appends {s : State} (h : s.q.front = none ↔ s.q.rear = none) (hnext : NextIs .qPush s) (hroom : s.q.count < 10) :
    ∃ t, step s = .next t ∧ t.succeeded ∧ t.q.contents = s.q.contents ++ [some s.wp] := by
  obtain ⟨c, cs, hp, hd⟩ := hnext
  obtain ⟨t, e, ⟨hfull, -⟩ | ⟨-, hok, hq, -⟩⟩ := exec_qPush_contents (s := s.take c.operands cs) h
  · rw [Queue.length_contents, take_q] at hfull
    omega
  · exact ⟨t, (step_ok hp hd).trans e, hok, hq⟩

/-- Settles O44: the push appends the packet to the list view, and the pops of the run take off exactly those before it. -/
theorem queueIsFirstInFirstOut : Obligations.QueueIsFirstInFirstOut := by
  intro s n hsentinel hpush hroom hnoQInit
  have h : s.KeepsPackets := ⟨hsentinel, hnoQInit⟩
  obtain ⟨s1, e1, hok, hq1⟩ := step_qPush_appends hsentinel hpush hroom
  obtain ⟨s1', e1', h1, -⟩ := step_contents h
  obtain rfl : s1 = s1' := by simpa using e1.symm.trans e1'
  obtain ⟨s2, e2, h2, hkept⟩ := run_contents n h1
  refine ⟨s1, s2, e1, hok, e2, fun hpops hpop => ?_⟩
  rw [hpops, hq1, ← Queue.length_contents, List.drop_left] at hkept
  obtain ⟨rest, hq2⟩ := hkept
  exact step_qPop_head h2.sentinel hpop hq2.symm

end Sys2Proof.Machine

/-! PROOFS of 60_exceptions.md: what a condition leaves (R141), and which operation raises which condition (R145, R153). -/

namespace Sys2Proof.Machine

/-- The states the matrix of R153 is written for: the default parameter (00_scope.md R10), and both indices -1 or neither
(10_state.md R31). -/
structure State.MatrixApplies (s : State) : Prop where
  eqCountFails : s.params.digiIndexEqCountFails = true
  sentinel : s.q.front = none ↔ s.q.rear = none

/-- `get_digipeater` gives a relay or fails with IndexOutOfRange; under the default parameter the relay count decides which (R138). -/
theorem Packet.getDigipeater_cases (p : Packet) (eqCountFails : Bool) (index : Nat) :
    (∃ a, p.getDigipeater eqCountFails index = .ok a ∧ (eqCountFails = true → index < p.ndigi.val)) ∨
      (p.getDigipeater eqCountFails index = .error .indexOutOfRange ∧ (eqCountFails = true → p.ndigi.val ≤ index)) := by
  by_cases h : index < 8 ∧ (index < p.ndigi.val ∨ (index = p.ndigi.val ∧ eqCountFails = false))
  · refine .inl ⟨_, dif_pos h, fun hdefault => ?_⟩
    simpa [hdefault] using h.2
  · refine .inr ⟨dif_neg h, fun _ => ?_⟩
    omega

/-- The two ways an operation ends (00_scope.md R16), with its row of the matrix (R153): it succeeds where the row names no condition,
or it raises the only condition the row names, driving the result ports and writing nothing else. -/
theorem exec_succeeds_or_raises (i : Instr) (s : State) :
    (∃ t, exec i s = .next t ∧ t.succeeded ∧ (s.MatrixApplies → ∀ d, ¬ Raises i s d)) ∨
      ∃ c, exec i s = .next (s.setResults (.failed c)) ∧ (s.MatrixApplies → ∀ d, Raises i s d ↔ d = c) := by
  cases i with
  | decodeAddress | pktInit | setSource _ _ _ | setDestination _ _ _ | getSource | getDestination | setPayload | qInit =>
    exact .inl ⟨_, rfl, rfl, fun _ _ => id⟩
  | encodeAddress null ssid csLen =>
    cases null with
    | true => exact .inr ⟨_, exec_encodeAddress_absent ssid csLen s, by simp [Raises]⟩
    | false => exact .inl ⟨_, exec_encodeAddress_present ssid csLen s, rfl, by simp [Raises]⟩
  | addDigipeater null ssid csLen =>
    cases null with
    | true => exact .inr ⟨_, exec_addDigipeater_absent ssid csLen s, by simp [Raises]⟩
    | false =>
      by_cases hfull : s.wp.ndigi.val = 8
      · exact .inr ⟨_, exec_addDigipeater_full ssid csLen hfull, by simp [Raises, hfull]⟩
      · exact .inl ⟨_, exec_addDigipeater_ok ssid csLen (by omega), rfl, by simp [Raises, hfull]⟩
  | getDigipeater index =>
    obtain ⟨a, e, hin⟩ | ⟨e, hout⟩ := s.wp.getDigipeater_cases s.params.digiIndexEqCountFails index
    · exact .inl ⟨_, exec_getDigipeater_ok e, rfl, fun h d => by simp [Raises, hin h.eqCountFails]⟩
    · exact .inr ⟨_, exec_getDigipeater_error e, fun h d => by simp [Raises, hout h.eqCountFails]⟩
  | buildFrame null =>
    cases null with
    | true => exact .inr ⟨_, exec_buildFrame_absent s, by simp [Raises]⟩
    | false =>
      by_cases hlong : s.params.maxFrameLen < s.wp.frameLength
      · exact .inr ⟨_, exec_buildFrame_long hlong, by simp [Raises, ← Packet.frameLength_eq, hlong]⟩
      · exact .inl ⟨_, exec_buildFrame_ok (not_lt.1 hlong), rfl, by simp [Raises, ← Packet.frameLength_eq, hlong]⟩
  | qPush =>
    cases hfull : s.q.isFull with
    | true => exact .inr ⟨_, exec_qPush_full hfull, fun h d => by simp [Raises, ← Queue.isFull_iff_count h.sentinel, hfull]⟩
    | false => exact .inl ⟨_, exec_qPush_ok hfull, rfl, fun h d => by simp [Raises, ← Queue.isFull_iff_count h.sentinel, hfull]⟩
  | qPop =>
    cases hfront : s.q.front with
    | none => exact .inr ⟨_, exec_qPop_empty hfront, by simp [Raises, hfront]⟩
    | some f => exact .inl ⟨_, exec_qPop_ok hfront, rfl, by simp [Raises, hfront]⟩

/-- A word that is no command raises IllegalCommand and leaves `WP` and `Q` as they are (R143). -/
theorem step_of_no_command {s : State} {c : Command} {rest : List Command} (h : s.pending = c :: rest)
    (hword : ∀ i, decode c.word ≠ .ok i) :
    ∃ t, step s = .next t ∧ t.results = failedResults .illegalCommand ∧ t.block = s.block := by
  cases hd : decode c.word with
  | ok i => exact absurd hd (hword i)
  | error e => exact ⟨_, step_error h hd, rfl, rfl⟩

/-- Settles O45: an operation that does not succeed raises a condition, and then it drives the result ports only. -/
theorem conditionsWriteNoState : Obligations.ConditionsWriteNoState := by
  intro i s t h hfailed
  obtain ⟨u, e, hok, -⟩ | ⟨c, e, -⟩ := exec_succeeds_or_raises i s
  · obtain rfl : u = t := by simpa using e.symm.trans h
    exact absurd hok hfailed
  · obtain rfl : s.setResults (.failed c) = t := by simpa using e.symm.trans h
    exact ⟨c, rfl⟩

/-- Settles O46: a success has a status that is no condition, and a failure has the status of the only one its row names. -/
theorem conditionMatrixIsExact : Obligations.ConditionMatrixIsExact := by
  refine ⟨fun i s hparam hsentinel => ?_, fun s c rest => step_of_no_command⟩
  have happlies : s.MatrixApplies := ⟨hparam, hsentinel⟩
  obtain ⟨t, e, hok, hnone⟩ | ⟨c, e, honly⟩ := exec_succeeds_or_raises i s
  · refine ⟨t, e, fun d => iff_of_false ?_ (hnone happlies d)⟩
    rw [show t.results.status = some .ok from hok]
    simp
  · refine ⟨_, e, fun d => ?_⟩
    rw [honly happlies d]
    simp [eq_comm]

end Sys2Proof.Machine

/-! PROOFS of 70_reset_and_hazards.md: the reset state is what PKT_INIT and Q_INIT leave (R155). -/

namespace Sys2Proof.Machine

/-- The packet given value by value in 10_state.md R35 is the one PKT_INIT writes under the default `INIT_B7` (00_scope.md R9). -/
theorem reset_wp : State.reset.wp = Packet.init State.reset.params.initB7 := rfl

/-- Under the default `INIT_B7` byte 6 too is an encoded space. -/
theorem initAddress_default (i : Fin 7) : (initAddress State.reset.params.initB7)[i] = 0x40 := by
  cases i using Fin.lastCases with
  | last => rfl
  | cast i => exact initAddress_char _ i

theorem reset_digi (i : Fin 7) (j : Fin 8) : State.reset.wp.digi[j][i] = 0x40 := by
  rw [reset_wp, Packet.init_digi]
  exact initAddress_default i

/-- No queue slot has a value at reset (10_state.md R35). -/
theorem reset_slot (i : Fin 10) : State.reset.q.slot[i] = none := Vector.getElem_replicate i.isLt

/-- Settles O52: PKT_INIT writes a packet that `INIT_B7` alone decides, so equal parameters give the reset one, and Q_INIT leaves it; at
reset all ten addresses are `initAddress`. -/
theorem resetIsPktInitThenQInit : Obligations.ResetIsPktInitThenQInit := by
  refine ⟨fun s hparams => ⟨_, _, exec_pktInit s, exec_qInit _, ?_, rfl, rfl⟩,
    fun i => ⟨initAddress_default i, initAddress_default i, reset_digi i⟩,
    rfl, rfl, rfl, rfl, fun _ _ => rfl, rfl, indexValue_none, indexValue_none, reset_slot⟩
  calc Packet.init s.params.initB7 = Packet.init State.reset.params.initB7 := by rw [hparams]
    _ = State.reset.wp := reset_wp.symm

end Sys2Proof.Machine

/-! PROOFS of 30_encoding.md: the decoder and the encoder of the command word (section 4, section 5), and what a host presents for a line
(R67, R69, R76); a step by the command it takes (20_memory.md R50; 10_state.md R33). -/

namespace Sys2Proof.Machine

/-! The table of operations, read by the decoder. -/

/-- `w` and `w'` agree on the fields that the row of `op` uses (30_encoding.md R68, R72). -/
structure UsedFieldsAgree (op : BitVec 4) (w w' : CommandWord) : Prop where
  callsign : op = 0x1 ∨ op = 0x4 ∨ op = 0x5 ∨ op = 0x6 →
    w.nullField = w'.nullField ∧ w.ssidField = w'.ssidField ∧ w.csLenField = w'.csLenField
  index : op = 0x9 → w.indexField = w'.indexField
  null : op = 0xB → w.nullField = w'.nullField

/-- The row of a callsign operation reads the three fields that such a row uses. -/
theorem UsedFieldsAgree.callsign_congr {op : BitVec 4} {w w' : CommandWord} (h : UsedFieldsAgree op w w')
    (hop : op = 0x1 ∨ op = 0x4 ∨ op = 0x5 ∨ op = 0x6) (f : Bool → Byte → Nat → Instr) :
    f w.nullField w.ssidField w.csLenField = f w'.nullField w'.ssidField w'.csLenField := by
  obtain ⟨hnull, hssid, hlen⟩ := h.callsign hop
  rw [hnull, hssid, hlen]

/-- The fourteen rows: each `op` but the two reserved ones has an operation, which the decoder builds from the fields its row uses
(30_encoding.md R70, R77). -/
theorem exists_row {op : BitVec 4} (h0 : op ≠ 0x0) (hF : op ≠ 0xF) :
    ∃ f : CommandWord → Instr, RowDecodes (op.setWidth 32) f ∧ (∀ w, (f w).op = op) ∧
      ∀ w w', UsedFieldsAgree op w w' → f w = f w' := by
  obtain ⟨n, hn⟩ := op
  interval_cases n
  · exact absurd rfl h0
  · exact ⟨_, rowDecodes_encodeAddress, fun _ => rfl, fun _ _ h => h.callsign_congr (.inl rfl) .encodeAddress⟩
  · exact ⟨_, rowDecodes_decodeAddress, fun _ => rfl, fun _ _ _ => rfl⟩
  · exact ⟨_, rowDecodes_pktInit, fun _ => rfl, fun _ _ _ => rfl⟩
  · exact ⟨_, rowDecodes_setSource, fun _ => rfl, fun _ _ h => h.callsign_congr (.inr (.inl rfl)) .setSource⟩
  · exact ⟨_, rowDecodes_setDestination, fun _ => rfl, fun _ _ h => h.callsign_congr (.inr (.inr (.inl rfl))) .setDestination⟩
  · exact ⟨_, rowDecodes_addDigipeater, fun _ => rfl, fun _ _ h => h.callsign_congr (.inr (.inr (.inr rfl))) .addDigipeater⟩
  · exact ⟨_, rowDecodes_getSource, fun _ => rfl, fun _ _ _ => rfl⟩
  · exact ⟨_, rowDecodes_getDestination, fun _ => rfl, fun _ _ _ => rfl⟩
  · exact ⟨_, rowDecodes_getDigipeater, fun _ => rfl, fun _ _ h => congrArg Instr.getDigipeater (h.index rfl)⟩
  · exact ⟨_, rowDecodes_setPayload, fun _ => rfl, fun _ _ _ => rfl⟩
  · exact ⟨_, rowDecodes_buildFrame, fun _ => rfl, fun _ _ h => congrArg Instr.buildFrame (h.null rfl)⟩
  · exact ⟨_, rowDecodes_qInit, fun _ => rfl, fun _ _ _ => rfl⟩
  · exact ⟨_, rowDecodes_qPush, fun _ => rfl, fun _ _ _ => rfl⟩
  · exact ⟨_, rowDecodes_qPop, fun _ => rfl, fun _ _ _ => rfl⟩
  · exact absurd rfl hF

/-! The masks. -/

/-- The row mask is the reserved bits and the `op` bits. -/
theorem and_rowMask (w : CommandWord) : w &&& rowMask = (w &&& reservedMask) ||| (w &&& 0xF) := by
  rw [← BitVec.and_or_distrib_left]
  rfl

/-- With no reserved bit set, the word under the row mask is its `op`. -/
theorem and_rowMask_of_reserved {w : CommandWord} (h : w &&& reservedMask = 0) : w &&& rowMask = w.opField.setWidth 32 := by
  rw [and_rowMask, h, ← and_opMask]
  exact BitVec.zero_or

theorem reservedMask_congr {w w' : CommandWord} (h : w &&& rowMask = w' &&& rowMask) : w &&& reservedMask = w' &&& reservedMask := by
  have hsub : rowMask &&& reservedMask = reservedMask := rfl
  rw [← hsub, ← BitVec.and_assoc, h, BitVec.and_assoc]

theorem opField_congr {w w' : CommandWord} (h : w &&& rowMask = w' &&& rowMask) : w.opField = w'.opField := by
  have hsub : rowMask &&& 0xF = 0xF := rfl
  apply opField_eq_of_and_opMask
  rw [← and_opMask, ← hsub, ← BitVec.and_assoc, h, BitVec.and_assoc]

/-- Two words that agree under a mask agree on every field the mask covers. -/
theorem extractLsb'_congr {w w' m : CommandWord} (h : w &&& m = w' &&& m) {start len : Nat}
    (hm : m.extractLsb' start len = BitVec.allOnes len) : w.extractLsb' start len = w'.extractLsb' start len := by
  have hfield := congrArg (BitVec.extractLsb' start len) h
  simpa only [BitVec.extractLsb'_and, hm, BitVec.and_allOnes] using hfield

theorem nullField_congr {w w' m : CommandWord} (h : w &&& m = w' &&& m) (hm : m.getLsbD 4 = true) : w.nullField = w'.nullField := by
  have hbit := congrArg (BitVec.getLsbD · 4) h
  simp only [BitVec.getLsbD_and, hm, Bool.and_true] at hbit
  exact hbit

/-! The decoder and the encoder. -/

/-- A word without a reserved bit and without a reserved `op` is a command, the one of its row. -/
theorem decode_ok_of_row {w : CommandWord} (hr : w &&& reservedMask = 0) (h0 : w.opField ≠ 0x0) (hF : w.opField ≠ 0xF) :
    ∃ i, decode w = .ok i ∧ w &&& rowMask = i.op.setWidth 32 := by
  obtain ⟨f, hrow, hop, -⟩ := exists_row h0 hF
  have hw := and_rowMask_of_reserved hr
  exact ⟨f w, hrow w hw, by rw [hop, hw]⟩

/-- Decoding depends on the row mask's bits and on the fields the row uses, and on nothing else of the word. -/
theorem decode_congr {w w' : CommandWord} (h : w &&& rowMask = w' &&& rowMask) (hu : UsedFieldsAgree w.opField w w') :
    decode w = decode w' := by
  have hres := reservedMask_congr h
  have hop := opField_congr h
  by_cases hr : w &&& reservedMask = 0
  · by_cases ho : w.opField = 0x0 ∨ w.opField = 0xF
    · rw [decode_of_reservedOp hr ho, decode_of_reservedOp (hres ▸ hr) (hop ▸ ho)]
    · obtain ⟨f, hrow, -, hf⟩ := exists_row (not_or.1 ho).1 (not_or.1 ho).2
      have hw := and_rowMask_of_reserved hr
      rw [hrow w hw, hrow w' (h ▸ hw), hf w w' hu]
  · rw [decode_of_reservedBits hr, decode_of_reservedBits (hres ▸ hr)]

/-- The decoder undoes the encoder on a callsign operation, whose row reads the three fields it was packed from. -/
theorem decode_packWord_callsign (op : BitVec 4) (f : Bool → Byte → Nat → Instr)
    (hrow : RowDecodes (op.setWidth 32) fun w => f w.nullField w.ssidField w.csLenField) (null : Bool) (ssid : Byte) {csLen : Nat}
    (h : csLen < 16) : decode (packWord op null ssid 0 csLen) = .ok (f null ssid csLen) := by
  simp only [hrow _ (packWord_row ..), packWord_nullField, packWord_ssidField, packWord_csLenField _ _ _ _ _ h]

/-- Settles O1: an encoded word is a word of its operation's row, which reads the fields back. -/
theorem decodeOfEncodeIsIdentity : Obligations.DecodeOfEncodeIsIdentity := by
  intro i h
  cases i with
  | encodeAddress null ssid csLen =>
    exact decode_packWord_callsign 0x1 .encodeAddress rowDecodes_encodeAddress null ssid (of_decide_eq_true h)
  | setSource null ssid csLen =>
    exact decode_packWord_callsign 0x4 .setSource rowDecodes_setSource null ssid (of_decide_eq_true h)
  | setDestination null ssid csLen =>
    exact decode_packWord_callsign 0x5 .setDestination rowDecodes_setDestination null ssid (of_decide_eq_true h)
  | addDigipeater null ssid csLen =>
    exact decode_packWord_callsign 0x6 .addDigipeater rowDecodes_addDigipeater null ssid (of_decide_eq_true h)
  | getDigipeater index =>
    have hindex : (encode (.getDigipeater index)).indexField = index := packWord_indexField _ _ _ _ _ (of_decide_eq_true h)
    simp only [rowDecodes_getDigipeater _ (Laws.RowWord.getDigipeater index), hindex]
  | buildFrame null =>
    have hnull : (encode (.buildFrame null)).nullField = null := packWord_nullField ..
    simp only [rowDecodes_buildFrame _ (Laws.RowWord.buildFrame null), hnull]
  | decodeAddress => exact rowDecodes_decodeAddress _ Laws.RowWord.decodeAddress
  | pktInit => exact rowDecodes_pktInit _ Laws.RowWord.pktInit
  | getSource => exact rowDecodes_getSource _ Laws.RowWord.getSource
  | getDestination => exact rowDecodes_getDestination _ Laws.RowWord.getDestination
  | setPayload => exact rowDecodes_setPayload _ Laws.RowWord.setPayload
  | qInit => exact rowDecodes_qInit _ Laws.RowWord.qInit
  | qPush => exact rowDecodes_qPush _ Laws.RowWord.qPush
  | qPop => exact rowDecodes_qPop _ Laws.RowWord.qPop

/-- Settles O2: the words of R73 are no command, and every other word is one of a row. -/
theorem decoderAcceptsExactlyTheTable : Obligations.DecoderAcceptsExactlyTheTable := by
  refine fun w => ⟨decode_error_of_illegal, fun ⟨hr, h0, hF⟩ => decode_ok_of_row hr (fun h => h0 ?_) fun h => hF ?_⟩
  · rw [and_opMask, h]
    rfl
  · rw [and_opMask, h]
    rfl

/-- Settles O3: the three masks of the statement cover the fields that the rows use. -/
theorem unusedFieldsAreIgnored : Obligations.UnusedFieldsAreIgnored := by
  intro w w' hrow hcallsign hindex hnull
  rw [and_opMask] at hcallsign hindex hnull
  have hop {o : BitVec 4} (h : w.opField = o) : w.opField.setWidth 32 = o.setWidth 32 := congrArg _ h
  refine decode_congr hrow ⟨fun h => ?_, fun h => ?_, fun h => nullField_congr (hnull (hop h)) rfl⟩
  · have hmask := hcallsign (h.imp hop (Or.imp hop (Or.imp hop hop)))
    exact ⟨nullField_congr hmask rfl, extractLsb'_congr hmask rfl, congrArg BitVec.toNat (extractLsb'_congr hmask rfl)⟩
  · exact congrArg BitVec.toNat (extractLsb'_congr (hindex (hop h)) rfl)

/-- Settles O4: the decoder evaluated on the nine words. -/
theorem specWordsDecode : Obligations.SpecWordsDecode := by
  unfold Obligations.SpecWordsDecode
  decide

/-! A step, and what a host presents for a line. -/

/-- Settles O5: a step on a command that decodes. -/
theorem stepRunsTheDecodedCommand : Obligations.StepRunsTheDecodedCommand := fun _ _ _ _ => step_ok

/-- A step drives all operand ports before it runs, and neither an operation nor a rejection reads the result ports. -/
theorem step_setResults_of_pending {s : State} {c : Command} {rest : List Command} (h : s.pending = c :: rest) (r : Results)
    (o : Operands) : step { s with results := r, operands := o } = step s := by
  have h' : ({ s with results := r, operands := o } : State).pending = c :: rest := h
  cases hd : decode c.word with
  | ok i =>
    rw [step_ok h' hd, step_ok h hd]
    exact exec_setResults i (s.take c.operands rest) r
  | error e =>
    rw [step_error h' hd, step_error h hd]
    rfl

/-- Settles O7: a step on the oldest pending command. -/
theorem earlierResultsAreUnreadable : Obligations.EarlierResultsAreUnreadable := by
  intro s r o hne
  obtain ⟨c, rest, h⟩ := List.exists_cons_of_ne_nil hne
  exact step_setResults_of_pending h r o

theorem csLenOf_lt (cs : Option Callsign) : csLenOf cs < 16 := Nat.lt_succ_of_le (Nat.min_le_right _ 15)

/-- A command word can carry the operation of every line. -/
theorem Line.instr_wellFormed (l : Line) : l.instr.wellFormed = true := by
  cases l with
  | encodeAddress cs _ | setSource cs _ | setDestination cs _ | addDigipeater cs _ => exact decide_eq_true (csLenOf_lt cs)
  | getDigipeater index => exact decide_eq_true index.isLt
  | decodeAddress _ | pktInit | getSource | getDestination | setPayload _ | buildFrame _ | qInit | qPush | qPop => rfl

/-- Settles O9: the line's word decodes to the line's operation, which a command word can carry. -/
theorem hostLineRunsItsOperation : Obligations.HostLineRunsItsOperation := fun _ l _ h =>
  step_ok h (decodeOfEncodeIsIdentity l.instr l.instr_wellFormed)

/-- The address a command encodes from a line's ports is that of the line's whole callsign. -/
theorem operandAddress_lanes (cs : Callsign) (ssid : Byte) {s : State} (h : s.operands.cs = csLanesOf (some cs)) :
    operandAddress s (csLenOf (some cs)) ssid = encodeAddress cs ssid := by
  rw [operandAddress, h, encodeAddress_lanes]

/-- Settles O10: each of the three lines runs its operation with the callsign present, on the line's lanes. -/
theorem portsLoseNothingOfACallsign : Obligations.PortsLoseNothingOfACallsign := by
  refine fun s cs ssid rest => ⟨fun h => ?_, fun h => ?_, fun h => ?_⟩ <;> have hstep := hostLineRunsItsOperation s _ rest h
  · refine ⟨_, hstep.trans (exec_encodeAddress_present ssid _ _), ?_, rfl⟩
    exact congrArg Results.address (encodeAddress_lanes cs ssid)
  · refine ⟨_, hstep.trans (exec_setSource_present ssid _ _), rfl, ?_, rfl⟩
    rw [setResults_wp, setWp_wp, operandAddress_lanes cs ssid rfl]
  · refine ⟨_, hstep.trans (exec_setDestination_present ssid _ _), rfl, ?_, rfl⟩
    rw [setResults_wp, setWp_wp, operandAddress_lanes cs ssid rfl]

end Sys2Proof.Machine

/-! PROOFS of 40_address_codec.md section 4: writing the chain-extension bit (R87). -/

namespace Sys2Proof.Machine

/-- A write of the bit leaves the six character bytes, so the callsign. -/
theorem decodeCallsign_withExt (a : Address) (b : Bool) : decodeCallsign (withExt a b) = decodeCallsign a := by
  apply Vector.ext
  intro i hi
  rw [getElem_decodeCallsign _ ⟨i, hi⟩, getElem_decodeCallsign _ ⟨i, hi⟩, withExt_getElem_of_lt a b i hi]

/-- The SSID of an address is in bits 7..1 of its byte 6. -/
theorem decodeSsid_eq (a : Address) : decodeSsid a = (a[6].extractLsb' 1 7).setWidth 4 := by
  apply BitVec.eq_of_getLsbD_eq
  intro j hj
  interval_cases j <;> simp [decodeSsid]

/-- A write of the bit leaves bits 7..1 of byte 6, so the SSID. -/
theorem decodeSsid_withExt (a : Address) (b : Bool) : decodeSsid (withExt a b) = decodeSsid a := by
  rw [decodeSsid_eq, decodeSsid_eq, withExt_high]

/-- Settles O17: setting and clearing the bit are the two writes `withExt`. -/
theorem extBitWritesKeepTheIdentity : Obligations.ExtBitWritesKeepTheIdentity := by
  intro a
  rw [setExt_eq_withExt, clearExt_eq_withExt]
  exact ⟨extBit_withExt a true, extBit_withExt a false, decodeCallsign_withExt a true, decodeSsid_withExt a true,
    decodeCallsign_withExt a false, decodeSsid_withExt a false⟩

end Sys2Proof.Machine

/-! PROOFS of 41_packet_model.md: a run of ADD_DIGIPEATER commands (R99), and GET_DIGIPEATER at the count (R104). -/

namespace Sys2Proof.Machine

/-! The relay chain call by call (R99). -/

/-- The command a call of `add_digipeater` presents. -/
def relayCommand (c : Callsign × Byte) : Command := (Line.addDigipeater (some c.1) c.2).assemble

theorem decode_relayCommand (c : Callsign × Byte) :
    decode (relayCommand c).word = .ok (.addDigipeater false c.2 (csLenOf (some c.1))) :=
  decodeOfEncodeIsIdentity _ (Line.addDigipeater (some c.1) c.2).instr_wellFormed

/-- With room for a relay, the call appends its whole callsign's address and returns the new count. -/
theorem step_relayCommand_ok {s : State} {c : Callsign × Byte} {rest : List Command} (hp : s.pending = relayCommand c :: rest)
    (h : s.wp.ndigi.val < 8) :
    step s = .next (((s.take (relayCommand c).operands rest).setWp
      { s.wp with digi := appendRelay s.wp.digi s.wp.ndigi h (encodeAddress c.1 c.2)
                  ndigi := ⟨s.wp.ndigi + 1, by omega⟩ }).setResults (.count (s.wp.ndigi + 1))) := by
  have hlanes : operandAddress (s.take (relayCommand c).operands rest) (csLenOf (some c.1)) c.2 = encodeAddress c.1 c.2 :=
    operandAddress_lanes c.1 c.2 rfl
  rw [step_ok hp (decode_relayCommand c), exec_addDigipeater_ok c.2 _ (s := s.take _ rest) h, hlanes]
  rfl

/-- With eight relays, the call fails. -/
theorem step_relayCommand_full {s : State} {c : Callsign × Byte} {rest : List Command} (hp : s.pending = relayCommand c :: rest)
    (h : s.wp.ndigi.val = 8) :
    step s = .next ((s.take (relayCommand c).operands rest).setResults (.failed .relayChainFull)) :=
  (step_ok hp (decode_relayCommand c)).trans (exec_addDigipeater_full _ _ h)

/-- The chain holds the first `n` of the calls in call order, the newest alone marked. -/
structure Packet.ChainIs (p : Packet) (calls : List (Callsign × Byte)) (n : Nat) : Prop where
  count : p.ndigi.val = n
  slot : ∀ (i : Fin 8) (c : Callsign × Byte), i.val < n → calls[i.val]? = some c →
    p.digi[i] = withExt (encodeAddress c.1 c.2) (decide (i.val + 1 = n))

/-- Appending the relay of the next call leaves a chain that is one call longer. -/
theorem Packet.ChainIs.append {p : Packet} {calls : List (Callsign × Byte)} {c : Callsign × Byte} (h : p.ndigi.val < 8)
    (hp : p.ChainIs calls p.ndigi.val) (hc : calls[p.ndigi.val]? = some c) :
    ({ p with digi := appendRelay p.digi p.ndigi h (encodeAddress c.1 c.2), ndigi := ⟨p.ndigi + 1, by omega⟩ } : Packet).ChainIs
      calls (p.ndigi.val + 1) := by
  refine ⟨rfl, fun i d hi hd => ?_⟩
  rw [getElem_appendRelay]
  split
  case isTrue hnew =>
    obtain rfl : c = d := Option.some.inj (hc.symm.trans (hnew ▸ hd))
    simp [setExt_eq_withExt, hnew]
  case isFalse hnew =>
    have hslot := hp.slot i d (by omega) hd
    split
    case isTrue hprior => simp [clearExt_eq_withExt, hslot, hnew]
    case isFalse hprior => simp [hslot, hnew, hprior]

/-- What `k` calls leave from a packet without relays: the first eight are in the chain, and the last of them ended with its count or,
past the eighth, with RelayChainFull. -/
structure State.AfterCalls (t : State) (calls : List (Callsign × Byte)) (k : Nat) : Prop where
  pending : t.pending = (calls.drop k).map relayCommand
  chain : t.wp.ChainIs calls (min k 8)
  counted : 1 ≤ k → k ≤ 8 → t.results = { status := some .ok, countOut := some (BitVec.ofNat 4 k) }
  full : 8 < k → t.results = failedResults .relayChainFull

/-- One more call. -/
theorem State.AfterCalls.step {t : State} {calls : List (Callsign × Byte)} {k : Nat} (h : t.AfterCalls calls k)
    (hk : k < calls.length) : ∃ u, Machine.step t = .next u ∧ u.AfterCalls calls (k + 1) := by
  have hcall : calls[k]? = some calls[k] := List.getElem?_eq_getElem hk
  have hpending : t.pending = relayCommand calls[k] :: (calls.drop (k + 1)).map relayCommand := by
    rw [h.pending, List.drop_eq_getElem_cons hk, List.map_cons]
  rcases Nat.lt_or_ge k 8 with hroom | hfull
  · obtain rfl : t.wp.ndigi.val = k := h.chain.count.trans (min_eq_left hroom.le)
    have hchain : t.wp.ChainIs calls t.wp.ndigi.val := by simpa only [min_eq_left hroom.le] using h.chain
    refine ⟨_, step_relayCommand_ok hpending hroom, rfl, ?_, fun _ _ => rfl, fun _ => by omega⟩
    rw [min_eq_left hroom]
    exact hchain.append hroom hcall
  · have hn : t.wp.ndigi.val = 8 := h.chain.count.trans (min_eq_right hfull)
    have hmin : min (k + 1) 8 = min k 8 := by omega
    exact ⟨_, step_relayCommand_full hpending hn, rfl, hmin ▸ h.chain, fun _ _ => by omega, fun _ => rfl⟩

/-- Any number of the calls. -/
theorem State.AfterCalls.run {s : State} {calls : List (Callsign × Byte)} (h : s.AfterCalls calls 0) {k : Nat}
    (hk : k ≤ calls.length) : ∃ t, Machine.run k s = .next t ∧ t.AfterCalls calls k := by
  induction k with
  | zero => exact ⟨s, rfl, h⟩
  | succ k ih =>
    obtain ⟨t, hrun, ht⟩ := ih (by omega)
    obtain ⟨u, hstep, hu⟩ := ht.step hk
    exact ⟨u, (run_add 1 hrun).trans (run_succ 0 hstep), hu⟩

/-- Settles O25: by induction on the number of calls, each of which appends one relay or finds eight. -/
theorem relayChainFillsInCallOrder : Obligations.RelayChainFillsInCallOrder := by
  intro calls s hempty hpending k hk
  have hstart : s.AfterCalls calls 0 := ⟨hpending, ⟨hempty, fun i _ hi => by omega⟩, fun h => by omega, fun h => by omega⟩
  obtain ⟨t, hrun, ht⟩ := hstart.run hk
  exact ⟨t, hrun, ht.chain.count, ht.chain.slot, ht.counted, ht.full⟩

/-! GET_DIGIPEATER with `DIGI_INDEX_EQ_COUNT_FAILS` false (R104). -/

/-- An index above the count, or of no slot, names no relay whatever the parameter is. -/
theorem Packet.getDigipeater_of_gt (p : Packet) (eqCountFails : Bool) {index : Nat} (h : p.ndigi.val < index ∨ 8 ≤ index) :
    p.getDigipeater eqCountFails index = .error .indexOutOfRange :=
  dif_neg fun ⟨_, _⟩ => by omega

/-- With the parameter false the slot at the count is read too. -/
theorem Packet.getDigipeater_of_le (p : Packet) {i : Fin 8} (h : i.val ≤ p.ndigi.val) : p.getDigipeater false i = .ok p.digi[i] :=
  dif_pos ⟨i.isLt, h.lt_or_eq.imp_right fun heq => ⟨heq, rfl⟩⟩

/-- An initialized address decodes to six spaces, SSID 0 and bit 0, under both values of `INIT_B7` (00_scope.md R9). -/
theorem decodedResults_initAddress {b7 : Byte} (h : b7 = 0x40 ∨ b7 = 0x60) :
    decodedResults (initAddress b7) = .decoded (Vector.replicate 6 0x20) 0 false := by
  rcases h with rfl | rfl <;> rfl

/-- Settles O29: the three cases of the index, the last on the slots PKT_INIT writes. -/
theorem getDigipeaterAtTheCountWhenAllowed : Obligations.GetDigipeaterAtTheCountWhenAllowed := by
  intro s hparam
  refine ⟨fun index hout => exec_getDigipeater_error (s.wp.getDigipeater_of_gt _ hout), fun i hi => ?_, fun hb7 => ?_⟩
  · exact ⟨_, exec_getDigipeater_ok (hparam ▸ s.wp.getDigipeater_of_le hi), decodesTo_decodedResults _⟩
  · have hslot : (Packet.init s.params.initB7).getDigipeater s.params.digiIndexEqCountFails 0 = .ok (initAddress s.params.initB7) := by
      rw [hparam, ← Packet.init_digi s.params.initB7 0]
      exact Packet.getDigipeater_of_le _ (i := 0) (Nat.zero_le _)
    exact ⟨_, _, exec_pktInit s, exec_getDigipeater_ok hslot, decodedResults_initAddress hb7⟩

end Sys2Proof.Machine

/-! PROOFS of 42_frame_builder.md: what a frame depends on (R110), and the frame of a fresh packet (R118). -/

namespace Sys2Proof.Machine

/-- Two packets that agree on what a frame is built from (R110). -/
structure Packet.SameFrameFields (p p' : Packet) : Prop where
  dst : p.dst = p'.dst
  src : p.src = p'.src
  ndigi : p.ndigi = p'.ndigi
  chain : ∀ i : Fin 8, i.val < p.ndigi.val → p.digi[i] = p'.digi[i]
  plen : p.plen = p'.plen
  payload : ∀ j, j < p.plen.val → p.payload.read j = p'.payload.read j

namespace Packet.SameFrameFields

variable {p p' : Packet} (h : p.SameFrameFields p')
include h

theorem frameLength_eq : p.frameLength = p'.frameLength := by
  rw [Packet.frameLength_eq, Packet.frameLength_eq, h.ndigi, h.plen]

theorem relayBlocks_eq : p.relayBlocks = p'.relayBlocks := by
  apply List.ext_getElem?
  intro i
  by_cases hi : i < p.ndigi.val
  · have hi' : i < p'.ndigi.val := h.ndigi ▸ hi
    rw [p.getElem?_relayBlocks ⟨i, by omega⟩ hi, p'.getElem?_relayBlocks ⟨i, by omega⟩ hi', h.chain ⟨i, by omega⟩ hi, h.ndigi]
  · rw [List.getElem?_eq_none (by simpa using hi), List.getElem?_eq_none (by simpa [← h.ndigi] using hi)]

theorem payloadBytes_eq : Memory.readBytes p.payload 0 p.plen = Memory.readBytes p'.payload 0 p'.plen := by
  rw [← h.plen]
  refine List.map_congr_left fun j hj => ?_
  rw [Nat.zero_add, h.payload j (List.mem_range.1 hj)]

theorem frameBody_eq : p.frameBody = p'.frameBody := by
  rw [frameBody, frameBody, h.dst, h.src, h.ndigi, h.relayBlocks_eq, h.payloadBytes_eq]

end Packet.SameFrameFields

/-- BUILD_FRAME drives the same result ports in two states that agree on what a frame is built from. -/
theorem exec_buildFrame_congr {s s' : State} (hmax : s.params.maxFrameLen = s'.params.maxFrameLen) (h : s.wp.SameFrameFields s'.wp) :
    ∃ r, exec (.buildFrame false) s = .next (s.setResults r) ∧ exec (.buildFrame false) s' = .next (s'.setResults r) := by
  by_cases hlong : s.params.maxFrameLen < s.wp.frameLength
  · exact ⟨_, exec_buildFrame_long hlong, exec_buildFrame_long (by rwa [← hmax, ← h.frameLength_eq])⟩
  · refine ⟨_, exec_buildFrame_ok (not_lt.1 hlong), ?_⟩
    rw [h.frameBody_eq]
    exact exec_buildFrame_ok (by rwa [← hmax, ← h.frameLength_eq, ← not_lt])

/-- Settles O36: the two packets have the same body and length, so the two operations drive the same results. -/
theorem frameDependsOnNothingElse : Obligations.FrameDependsOnNothingElse := by
  intro s s' hmax hdst hsrc hndigi hchain hplen hpayload
  obtain ⟨r, e, e'⟩ := exec_buildFrame_congr hmax ⟨hdst, hsrc, hndigi, hchain, hplen, hpayload⟩
  exact ⟨_, _, e, e', rfl⟩

/-- A fresh packet has neither relays nor payload: seven encoded spaces, six, and the source's last byte with its bit set (R118). -/
theorem frameBody_init : (Packet.init 0x40).frameBody = List.replicate 13 0x40 ++ [0x41] := rfl

/-- Settles O37: the frame is the body of the initial packet with its checksum. -/
theorem freshPacketFrame : Obligations.FreshPacketFrame := by
  intro s hb7 hmax body
  have hlen : (Packet.init s.params.initB7).frameLength = 16 := rfl
  refine ⟨_, _, exec_pktInit s, exec_buildFrame_ok (hlen.trans_le hmax), ?_, rfl⟩
  rw [setResults_results, setResults_wp, setWp_wp, hb7, frameBody_init]
  rfl

end Sys2Proof.Machine

/-! PROOFS of 10_state.md: what an operation can write (R37, R23), the invariant (R26, R31, R36), and stale data (R34). -/

namespace Sys2Proof.Machine

/-! What an operation can write. -/

/-- Everything operation `i` can do to state `s`: drive the result ports alone, where it reads, raises a condition or has an absent
callsign, or else the one write of its row of the access matrix (10_state.md R37). -/
inductive Effect (s : State) : Instr → State → Prop
  | reads (i : Instr) (hi : readsOnly i = true) (r : Results) : Effect s i (s.setResults r)
  | raises (i : Instr) (c : Condition) : Effect s i (s.setResults (.failed c))
  | setSourceAbsent (ssid : Byte) (csLen : Nat) : Effect s (.setSource true ssid csLen) (s.setResults .done)
  | setDestinationAbsent (ssid : Byte) (csLen : Nat) : Effect s (.setDestination true ssid csLen) (s.setResults .done)
  | pktInit : Effect s .pktInit ((s.setWp (Packet.init s.params.initB7)).setResults .done)
  | setSource (ssid : Byte) (csLen : Nat) :
    Effect s (.setSource false ssid csLen) ((s.setWp { s.wp with src := operandAddress s csLen ssid }).setResults .done)
  | setDestination (ssid : Byte) (csLen : Nat) :
    Effect s (.setDestination false ssid csLen) ((s.setWp { s.wp with dst := operandAddress s csLen ssid }).setResults .done)
  | addDigipeater (ssid : Byte) (csLen : Nat) (h : s.wp.ndigi.val < 8) :
    Effect s (.addDigipeater false ssid csLen)
      ((s.setWp { s.wp with digi := appendRelay s.wp.digi s.wp.ndigi h (operandAddress s csLen ssid)
                            ndigi := ⟨s.wp.ndigi + 1, by omega⟩ }).setResults (.count (s.wp.ndigi + 1)))
  | setPayload : Effect s .setPayload ((s.setWp (s.wp.setPayload (payloadOperand s.operands))).setResults .done)
  | qInit : Effect s .qInit ((s.setQ s.q.init).setResults .done)
  | qPush (h : s.q.isFull = false) : Effect s .qPush ((s.setQ (s.q.pushed s.wp)).setResults .done)
  | qPop (f : Fin 10) (h : s.q.front = some f) :
    Effect s .qPop (((s.setWp (s.q.readSlot f)).setQ s.q.popped).setResults .done)

/-- Every operation answers a next state, by one of its effects. -/
theorem exec_effect (i : Instr) (s : State) : ∃ t, exec i s = .next t ∧ Effect s i t := by
  by_cases hr : readsOnly i = true
  · obtain ⟨r, e⟩ := exec_of_readsOnly hr s
    exact ⟨_, e, .reads i hr r⟩
  cases i with
  | pktInit => exact ⟨_, exec_pktInit s, .pktInit⟩
  | setSource null ssid csLen =>
    cases null with
    | true => exact ⟨_, exec_setSource_absent ssid csLen s, .setSourceAbsent ssid csLen⟩
    | false => exact ⟨_, exec_setSource_present ssid csLen s, .setSource ssid csLen⟩
  | setDestination null ssid csLen =>
    cases null with
    | true => exact ⟨_, exec_setDestination_absent ssid csLen s, .setDestinationAbsent ssid csLen⟩
    | false => exact ⟨_, exec_setDestination_present ssid csLen s, .setDestination ssid csLen⟩
  | addDigipeater null ssid csLen =>
    cases null with
    | true => exact ⟨_, exec_addDigipeater_absent ssid csLen s, .raises _ _⟩
    | false =>
      rcases Nat.lt_or_ge s.wp.ndigi.val 8 with h | h
      · exact ⟨_, exec_addDigipeater_ok ssid csLen h, .addDigipeater ssid csLen h⟩
      · exact ⟨_, exec_addDigipeater_full ssid csLen (by omega), .raises _ _⟩
  | setPayload => exact ⟨_, exec_setPayload s, .setPayload⟩
  | qInit => exact ⟨_, exec_qInit s, .qInit⟩
  | qPush =>
    cases hq : s.q.isFull with
    | true => exact ⟨_, exec_qPush_full hq, .raises _ _⟩
    | false => exact ⟨_, exec_qPush_ok hq, .qPush hq⟩
  | qPop =>
    cases hf : s.q.front with
    | none => exact ⟨_, exec_qPop_empty hf, .raises _ _⟩
    | some f => exact ⟨_, exec_qPop_ok hf, .qPop f hf⟩
  | encodeAddress _ _ _ | decodeAddress | getSource | getDestination | getDigipeater _ | buildFrame _ => exact absurd rfl hr

theorem effect_of_exec {i : Instr} {s t : State} (h : exec i s = .next t) : Effect s i t := by
  obtain ⟨u, e, hu⟩ := exec_effect i s
  obtain rfl : u = t := by simpa using e.symm.trans h
  exact hu

/-- Settles O47: in each effect, the fields that its one write leaves are those its row does not mark. -/
theorem onlyTheMarkedStateIsWritten : Obligations.OnlyTheMarkedStateIsWritten := by
  intro i s t h
  cases effect_of_exec h <;> simp [Packet.setPayload, Queue.init]

/-- An ADD_DIGIPEATER that succeeds raises the relay count by one (10_state.md R23). -/
theorem ndigi_of_addDigipeater_succeeded {null : Bool} {ssid : Byte} {csLen : Nat} {s t : State}
    (h : exec (.addDigipeater null ssid csLen) s = .next t) (hok : t.succeeded) : t.wp.ndigi.val = s.wp.ndigi.val + 1 := by
  cases effect_of_exec h with
  | reads _ hi => cases hi
  | raises _ c => exact absurd hok (not_succeeded_failed s c)
  | addDigipeater => rfl

/-- Every operation but PKT_INIT, ADD_DIGIPEATER and Q_POP keeps the relay count, by its row of the matrix. -/
theorem ndigi_of_unmarked {i : Instr} {s t : State} (h : exec i s = .next t) (hinit : i ≠ .pktInit)
    (hadd : ∀ a b c, i ≠ .addDigipeater a b c) (hpop : i ≠ .qPop) : t.wp.ndigi = s.wp.ndigi := by
  obtain ⟨-, -, hrelays, -⟩ := onlyTheMarkedStateIsWritten i s t h
  obtain ⟨-, hn⟩ | hw | ⟨a, b, c, hw⟩ | hw := hrelays
  · exact hn
  · exact absurd hw hinit
  · exact absurd hw (hadd a b c)
  · exact absurd hw hpop

/-- A resident slot that holds a packet reads as that packet. -/
theorem Queue.readSlot_of_some {q : Queue} {f : Fin 10} {p : Packet} (h : q.slot[f] = some p) : q.readSlot f = p := by
  simp [readSlot, h]

/-- Settles O31: PKT_INIT and Q_POP replace the packet, ADD_DIGIPEATER appends a relay, and the rest is R141 and R37. -/
theorem relayCountOnlyGrowsOrIsReplaced : Obligations.RelayCountOnlyGrowsOrIsReplaced := by
  intro i s t h
  refine ⟨Nat.le_of_lt_succ t.wp.ndigi.isLt, ?_, ?_, ?_, fun hfailed => ?_, ndigi_of_unmarked h⟩
  · rintro rfl
    cases h
    rfl
  · rintro null ssid csLen rfl
    exact ndigi_of_addDigipeater_succeeded h
  · rintro f p rfl hf hp
    rw [exec_qPop_ok hf] at h
    cases h
    exact congrArg Packet.ndigi (Queue.readSlot_of_some hp)
  · obtain ⟨c, rfl⟩ := conditionsWriteNoState i s t h hfailed
    rfl

/-! The invariant. -/

/-- A packet as PKT_INIT leaves it, under both values of `INIT_B7` (00_scope.md R9). -/
theorem Packet.inv_init {b7 : Byte} (h : b7 = 0x40 ∨ b7 = 0x60) : (Packet.init b7).Inv where
  srcExt := extBit_initAddress h
  dstExt := extBit_initAddress h
  chain _ hi := absurd hi (Nat.not_lt_zero _)
  ctrl := rfl
  pid := rfl
  payload := Memory.wf_nil

/-- The bytes SET_PAYLOAD copies fit the buffer, so it stays canonical. -/
theorem Packet.Inv.setPayload {p : Packet} (h : p.Inv) (bytes : List Byte) : (p.setPayload bytes).Inv :=
  { h with payload := Memory.wf_writeBytes h.payload (by simp) }

theorem Packet.Inv.setSrc {p : Packet} (h : p.Inv) {a : Address} (ha : extBit a = false) : ({ p with src := a } : Packet).Inv :=
  { h with srcExt := ha }

theorem Packet.Inv.setDst {p : Packet} (h : p.Inv) {a : Address} (ha : extBit a = false) : ({ p with dst := a } : Packet).Inv :=
  { h with dstExt := ha }

/-- The appended relay takes the mark over from the one before it. -/
theorem Packet.Inv.addRelay {p : Packet} (h : p.Inv) (hn : p.ndigi.val < 8) (a : Address) :
    ({ p with digi := appendRelay p.digi p.ndigi hn a, ndigi := ⟨p.ndigi + 1, by omega⟩ } : Packet).Inv :=
  { h with chain := fun _ => extBit_appendRelay hn a h.chain }

namespace Queue

/-- An empty queue, whatever its slots hold. -/
theorem Inv.init {q : Queue} (h : q.Inv) : q.init.Inv where
  sentinel := Iff.rfl
  slots := h.slots
  resident o ho := by simp [contents_none (q := q.init) rfl] at ho

theorem Inv.pushed {q : Queue} (h : q.Inv) (hroom : q.isFull = false) {p : Packet} (hp : p.Inv) : (q.pushed p).Inv where
  sentinel := by simp [pushed_sentinel]
  slots i x hx := by
    rw [getElem_pushed_slot] at hx
    split at hx
    case isTrue => exact Option.some.inj hx ▸ hp
    case isFalse => exact h.slots i x hx
  resident o ho := by
    rw [contents_pushed p h.sentinel hroom, List.mem_append, List.mem_singleton] at ho
    rcases ho with ho | rfl
    · exact h.resident o ho
    · exact Option.some_ne_none p

/-- Where the front is a slot, that slot holds a packet, and the list view is that packet and what a pop leaves. -/
theorem Inv.front_slot {q : Queue} (h : q.Inv) {f : Fin 10} (hf : q.front = some f) :
    ∃ p, q.slot[f] = some p ∧ q.contents = some p :: q.popped.contents := by
  obtain ⟨r, hr⟩ := Option.ne_none_iff_exists'.1 (h.sentinel.not.1 (by simp [hf]))
  have hcons := contents_popped hf hr
  obtain ⟨p, hp⟩ := Option.ne_none_iff_exists'.1 (h.resident q.slot[f] (by simp [hcons]))
  exact ⟨p, hp, hp ▸ hcons⟩

theorem Inv.popped {q : Queue} (h : q.Inv) {f : Fin 10} (hf : q.front = some f) : q.popped.Inv := by
  obtain ⟨p, -, hcons⟩ := h.front_slot hf
  refine ⟨popped_sentinel (h.sentinel.not.1 (by simp [hf])), fun i x hx => ?_, fun o ho => ?_⟩
  · rw [popped_slot] at hx
    exact h.slots i x hx
  · exact h.resident o (hcons ▸ List.mem_cons_of_mem _ ho)

/-- The packet a pop copies out meets the packet invariants. -/
theorem Inv.readSlot {q : Queue} (h : q.Inv) {f : Fin 10} (hf : q.front = some f) : (q.readSlot f).Inv := by
  obtain ⟨p, hp, -⟩ := h.front_slot hf
  exact readSlot_of_some hp ▸ h.slots f p hp

end Queue

namespace State.Inv

variable {s : State} (h : s.Inv)
include h

/-- The invariant does not speak of the ports and of the commands to come. -/
theorem setResults (r : Results) : (s.setResults r).Inv := ⟨h.wp, h.q, h.initB7⟩

theorem take (o : Operands) (rest : List Command) : (s.take o rest).Inv := ⟨h.wp, h.q, h.initB7⟩

theorem setWp {p : Packet} (hp : p.Inv) : (s.setWp p).Inv := ⟨hp, h.q, h.initB7⟩

theorem setQ {q : Queue} (hq : q.Inv) : (s.setQ q).Inv := ⟨h.wp, hq, h.initB7⟩

end State.Inv

/-- Every effect keeps the invariant. -/
theorem Effect.inv {i : Instr} {s t : State} (h : Effect s i t) (hs : s.Inv) : t.Inv := by
  cases h with
  | reads _ _ r => exact hs.setResults r
  | raises _ c => exact hs.setResults _
  | setSourceAbsent | setDestinationAbsent => exact hs.setResults _
  | pktInit => exact (hs.setWp (Packet.inv_init hs.initB7)).setResults _
  | setSource ssid csLen => exact (hs.setWp (hs.wp.setSrc (extBit_operandAddress s csLen ssid))).setResults _
  | setDestination ssid csLen => exact (hs.setWp (hs.wp.setDst (extBit_operandAddress s csLen ssid))).setResults _
  | addDigipeater ssid csLen hroom => exact (hs.setWp (hs.wp.addRelay hroom _)).setResults _
  | setPayload => exact (hs.setWp (hs.wp.setPayload _)).setResults _
  | qInit => exact (hs.setQ hs.q.init).setResults _
  | qPush hroom => exact (hs.setQ (hs.q.pushed hroom hs.wp)).setResults _
  | qPop f hf => exact ((hs.setWp (hs.q.readSlot hf)).setQ (hs.q.popped hf)).setResults _

/-- Settles O50: a step is a wait, a rejection, or an operation, whose effect keeps the invariant. -/
theorem stepKeepsTheInvariant : Obligations.StepKeepsTheInvariant := by
  intro s t hs h
  cases hp : s.pending with
  | nil =>
    rw [step_nil hp] at h
    cases h
    exact hs
  | cons c rest =>
    cases hd : decode c.word with
    | error e =>
      rw [step_error hp hd] at h
      cases h
      exact (hs.take _ _).setResults _
    | ok i =>
      rw [step_ok hp hd] at h
      exact (effect_of_exec h).inv (hs.take _ _)

/-- Settles O51: `WP` is as PKT_INIT leaves it, and no slot of the queue holds a packet. -/
theorem resetMeetsTheInvariant : Obligations.ResetMeetsTheInvariant where
  wp := Packet.inv_init (.inl rfl)
  q :=
    { sentinel := Iff.rfl
      slots := fun i _ hp => absurd ((reset_slot i).symm.trans hp) nofun
      resident := fun o ho => by simp [Queue.contents_none (q := State.reset.q) rfl] at ho }
  initB7 := .inl rfl

/-! Stale data (R34). -/

/-- Two packets that differ in stale data only give the same frame. -/
theorem Packet.SameButStale.sameFrameFields {p p' : Packet} (h : p.SameButStale p') : p.SameFrameFields p' :=
  ⟨h.dst, h.src, h.ndigi, h.chain, h.plen, h.payload⟩

theorem Packet.SameButStale.refl (p : Packet) : p.SameButStale p :=
  ⟨rfl, rfl, rfl, rfl, rfl, rfl, fun _ _ => rfl, fun _ _ => rfl⟩

theorem Packet.SameButStale.setSrc {p p' : Packet} (h : p.SameButStale p') (a : Address) :
    ({ p with src := a } : Packet).SameButStale { p' with src := a } :=
  { h with src := rfl }

theorem Packet.SameButStale.setDst {p p' : Packet} (h : p.SameButStale p') (a : Address) :
    ({ p with dst := a } : Packet).SameButStale { p' with dst := a } :=
  { h with dst := rfl }

/-- The appended relay and the one before it are slots of both chains, and the slots past them stay stale. -/
theorem Packet.SameButStale.addRelay {p p' : Packet} (h : p.SameButStale p') (hn : p.ndigi.val < 8) (hn' : p'.ndigi.val < 8)
    (a : Address) :
    ({ p with digi := appendRelay p.digi p.ndigi hn a, ndigi := ⟨p.ndigi + 1, by omega⟩ } : Packet).SameButStale
      { p' with digi := appendRelay p'.digi p'.ndigi hn' a, ndigi := ⟨p'.ndigi + 1, by omega⟩ } := by
  refine { h with ndigi := by simp [h.ndigi], chain := fun i hi => ?_ }
  rw [getElem_appendRelay, getElem_appendRelay, ← h.ndigi]
  split
  case isTrue => rfl
  case isFalse hold => rw [h.chain i (by simp at hi; omega)]

/-- Below its length the payload is the bytes SET_PAYLOAD copied, whatever the buffer held. -/
theorem Packet.SameButStale.setPayload {p p' : Packet} (h : p.SameButStale p') (hwf : Memory.wf p.payload) (hwf' : Memory.wf p'.payload)
    {bytes : List Byte} (hlen : bytes.length ≤ 256) : (p.setPayload bytes).SameButStale (p'.setPayload bytes) := by
  have hlen' : 0 + bytes.length ≤ 256 := by omega
  rw [setPayload_of_length_le p hlen, setPayload_of_length_le p' hlen]
  refine { h with plen := rfl, payload := fun j hj => ?_ }
  have hbyte : bytes[j - 0]? = some bytes[j] := List.getElem?_eq_getElem hj
  rw [Memory.read_writeBytes j hwf hlen', Memory.read_writeBytes j hwf' hlen', hbyte]
  rfl

/-- GET_DIGIPEATER under the default parameter reads slots of the chain only. -/
theorem Packet.SameButStale.getDigipeater_eq {p p' : Packet} (h : p.SameButStale p') (index : Nat) :
    p.getDigipeater true index = p'.getDigipeater true index := by
  rcases Nat.lt_or_ge index p.ndigi.val with hi | hi
  · have hslot := p.getDigipeater_ok true (i := ⟨index, by omega⟩) hi
    have hslot' := p'.getDigipeater_ok true (i := ⟨index, by omega⟩) (h.ndigi ▸ hi)
    exact hslot.trans ((congrArg Except.ok (h.chain ⟨index, by omega⟩ hi)).trans hslot'.symm)
  · rw [p.getDigipeater_outOfRange hi, p'.getDigipeater_outOfRange (h.ndigi ▸ hi)]

/-- Operation `i` gives the same results in `s` and `s'`, and leaves states that differ in stale data only. -/
def AnswersAlike (i : Instr) (s s' : State) : Prop :=
  ∃ t t', exec i s = .next t ∧ exec i s' = .next t' ∧ t.results = t'.results ∧ t.SameButStale t'

namespace State.SameButStale

variable {s s' : State} (h : s.SameButStale s')
include h

theorem isFull_eq : s.q.isFull = s'.q.isFull := by rw [Queue.isFull, Queue.isFull, h.front, h.rear]

theorem operandAddress_eq (csLen : Nat) (ssid : Byte) : operandAddress s csLen ssid = operandAddress s' csLen ssid := by
  rw [operandAddress, operandAddress, h.operands]

/-- The relation does not speak of the result ports. -/
theorem setResults (r r' : Results) : (s.setResults r).SameButStale (s'.setResults r') := { h with }

theorem setWp {p p' : Packet} (hp : p.SameButStale p') : (s.setWp p).SameButStale (s'.setWp p') := { h with wp := hp }

/-- An operation that drives the same results in both states and writes nothing. -/
theorem answersAlike_of_results {i : Instr} {r : Results} (e : exec i s = .next (s.setResults r))
    (e' : exec i s' = .next (s'.setResults r)) : AnswersAlike i s s' :=
  ⟨_, _, e, e', rfl, h.setResults r r⟩

/-- An operation that drives the same results in both states and writes packets to `WP` that differ in stale data only. -/
theorem answersAlike_of_wp {i : Instr} {r : Results} {p p' : Packet} (hp : p.SameButStale p')
    (e : exec i s = .next ((s.setWp p).setResults r)) (e' : exec i s' = .next ((s'.setWp p').setResults r)) : AnswersAlike i s s' :=
  ⟨_, _, e, e', rfl, (h.setWp hp).setResults r r⟩

/-- The reading operations. -/
theorem answersAlike_of_readsOnly {i : Instr} (hi : readsOnly i = true) (hparam : s.params.digiIndexEqCountFails = true) :
    AnswersAlike i s s' := by
  cases i with
  | encodeAddress null ssid csLen =>
    cases null with
    | true => exact h.answersAlike_of_results (exec_encodeAddress_absent ssid csLen s) (exec_encodeAddress_absent ssid csLen s')
    | false =>
      refine h.answersAlike_of_results (exec_encodeAddress_present ssid csLen s) ?_
      rw [h.operands]
      exact exec_encodeAddress_present ssid csLen s'
  | decodeAddress =>
    refine h.answersAlike_of_results (exec_decodeAddress s) ?_
    rw [h.operands]
    exact exec_decodeAddress s'
  | getSource =>
    refine h.answersAlike_of_results (exec_getSource s) ?_
    rw [h.wp.src]
    exact exec_getSource s'
  | getDestination =>
    refine h.answersAlike_of_results (exec_getDestination s) ?_
    rw [h.wp.dst]
    exact exec_getDestination s'
  | getDigipeater index =>
    have hsame : s.wp.getDigipeater s.params.digiIndexEqCountFails index = s'.wp.getDigipeater s'.params.digiIndexEqCountFails index := by
      rw [← h.params, hparam, h.wp.getDigipeater_eq index]
    cases hres : s.wp.getDigipeater s.params.digiIndexEqCountFails index with
    | error c => exact h.answersAlike_of_results (exec_getDigipeater_error hres) (exec_getDigipeater_error (hsame ▸ hres))
    | ok a => exact h.answersAlike_of_results (exec_getDigipeater_ok hres) (exec_getDigipeater_ok (hsame ▸ hres))
  | buildFrame null =>
    cases null with
    | true => exact h.answersAlike_of_results (exec_buildFrame_absent s) (exec_buildFrame_absent s')
    | false =>
      obtain ⟨r, e, e'⟩ := exec_buildFrame_congr (congrArg Config.Params.maxFrameLen h.params) h.wp.sameFrameFields
      exact h.answersAlike_of_results e e'
  | pktInit | setSource _ _ _ | setDestination _ _ _ | addDigipeater _ _ _ | setPayload | qInit | qPush | qPop => cases hi

theorem answersAlike_pktInit : AnswersAlike .pktInit s s' := by
  refine h.answersAlike_of_wp (.refl _) (exec_pktInit s) ?_
  rw [h.params]
  exact exec_pktInit s'

theorem answersAlike_setSource (null : Bool) (ssid : Byte) (csLen : Nat) : AnswersAlike (.setSource null ssid csLen) s s' := by
  cases null with
  | true => exact h.answersAlike_of_results (exec_setSource_absent ssid csLen s) (exec_setSource_absent ssid csLen s')
  | false =>
    refine h.answersAlike_of_wp (h.wp.setSrc _) (exec_setSource_present ssid csLen s) ?_
    rw [h.operandAddress_eq]
    exact exec_setSource_present ssid csLen s'

theorem answersAlike_setDestination (null : Bool) (ssid : Byte) (csLen : Nat) :
    AnswersAlike (.setDestination null ssid csLen) s s' := by
  cases null with
  | true => exact h.answersAlike_of_results (exec_setDestination_absent ssid csLen s) (exec_setDestination_absent ssid csLen s')
  | false =>
    refine h.answersAlike_of_wp (h.wp.setDst _) (exec_setDestination_present ssid csLen s) ?_
    rw [h.operandAddress_eq]
    exact exec_setDestination_present ssid csLen s'

theorem answersAlike_addDigipeater (null : Bool) (ssid : Byte) (csLen : Nat) : AnswersAlike (.addDigipeater null ssid csLen) s s' := by
  cases null with
  | true => exact h.answersAlike_of_results (exec_addDigipeater_absent ssid csLen s) (exec_addDigipeater_absent ssid csLen s')
  | false =>
    rcases Nat.lt_or_ge s.wp.ndigi.val 8 with hn | hn
    · have hn' : s'.wp.ndigi.val < 8 := h.wp.ndigi ▸ hn
      refine h.answersAlike_of_wp (h.wp.addRelay hn hn' _) (exec_addDigipeater_ok ssid csLen hn) ?_
      rw [h.operandAddress_eq, h.wp.ndigi]
      exact exec_addDigipeater_ok ssid csLen hn'
    · have hfull : s.wp.ndigi.val = 8 := by omega
      exact h.answersAlike_of_results (exec_addDigipeater_full ssid csLen hfull)
        (exec_addDigipeater_full ssid csLen (h.wp.ndigi ▸ hfull))

theorem answersAlike_setPayload (hs : s.Inv) (hs' : s'.Inv) : AnswersAlike .setPayload s s' := by
  have hlen : (payloadOperand s.operands).length ≤ 256 := by simp [length_payloadOperand]
  refine h.answersAlike_of_wp (h.wp.setPayload hs.wp.payload hs'.wp.payload hlen) (exec_setPayload s) ?_
  rw [h.operands]
  exact exec_setPayload s'

theorem answersAlike_qInit : AnswersAlike .qInit s s' :=
  ⟨_, _, exec_qInit s, exec_qInit s', rfl, { h with
    front := rfl
    rear := rfl
    contents := by simp [Queue.contents_none (q := Queue.init _) rfl] }⟩

theorem answersAlike_qPush (hs : s.Inv) (hs' : s'.Inv) : AnswersAlike .qPush s s' := by
  cases hfull : s.q.isFull with
  | true => exact h.answersAlike_of_results (exec_qPush_full hfull) (exec_qPush_full (h.isFull_eq ▸ hfull))
  | false =>
    have hfull' : s'.q.isFull = false := h.isFull_eq ▸ hfull
    refine ⟨_, _, exec_qPush_ok hfull, exec_qPush_ok hfull', rfl, { h with front := ?_, rear := ?_, contents := ?_ }⟩
    · simp [Queue.pushed_front, Queue.isEmpty, h.front]
    · simp [h.rear]
    · rw [setResults_q, setQ_q, setResults_q, setQ_q, Queue.contents_pushed _ hs.q.sentinel hfull,
        Queue.contents_pushed _ hs'.q.sentinel hfull']
      exact List.rel_append h.contents (.cons (.some h.wp) .nil)

theorem popped_indices_eq : s.q.popped.front = s'.q.popped.front ∧ s.q.popped.rear = s'.q.popped.rear := by
  simp only [Queue.popped, h.front, h.rear]
  split <;> exact ⟨rfl, rfl⟩

theorem answersAlike_qPop (hs : s.Inv) (hs' : s'.Inv) : AnswersAlike .qPop s s' := by
  cases hf : s.q.front with
  | none => exact h.answersAlike_of_results (exec_qPop_empty hf) (exec_qPop_empty (h.front ▸ hf))
  | some f =>
    have hf' : s'.q.front = some f := h.front ▸ hf
    obtain ⟨p, hp, hcons⟩ := hs.q.front_slot hf
    obtain ⟨p', hp', hcons'⟩ := hs'.q.front_slot hf'
    have hcontents := h.contents
    rw [hcons, hcons', List.forall₂_cons, Option.rel_some_some] at hcontents
    obtain ⟨hhead, htail⟩ := hcontents
    refine ⟨_, _, exec_qPop_ok hf, exec_qPop_ok hf', rfl, { h with wp := ?_, front := ?_, rear := ?_, contents := htail }⟩
    · simpa [Queue.readSlot_of_some hp, Queue.readSlot_of_some hp'] using hhead
    · exact h.popped_indices_eq.1
    · exact h.popped_indices_eq.2

end State.SameButStale

/-- Settles O49: a reading operation looks at no stale data, and what each writing operation writes differs in stale data only. -/
theorem staleDataStaysInvisible : Obligations.StaleDataStaysInvisible := by
  intro i s s' hs hs' h hparam
  by_cases hr : readsOnly i = true
  · exact h.answersAlike_of_readsOnly hr hparam
  cases i with
  | pktInit => exact h.answersAlike_pktInit
  | setSource null ssid csLen => exact h.answersAlike_setSource null ssid csLen
  | setDestination null ssid csLen => exact h.answersAlike_setDestination null ssid csLen
  | addDigipeater null ssid csLen => exact h.answersAlike_addDigipeater null ssid csLen
  | setPayload => exact h.answersAlike_setPayload hs hs'
  | qInit => exact h.answersAlike_qInit
  | qPush => exact h.answersAlike_qPush hs hs'
  | qPop => exact h.answersAlike_qPop hs hs'
  | encodeAddress _ _ _ | decodeAddress | getSource | getDestination | getDigipeater _ | buildFrame _ => exact absurd rfl hr

end Sys2Proof.Machine

/-! PROOFS of 60_exceptions.md: nothing stops the block (R148), and the diagnostic reads (R152). -/

namespace Sys2Proof.Machine

/-- Every step answers a next state. -/
theorem step_next (s : State) : ∃ t, step s = .next t := by
  cases hp : s.pending with
  | nil => exact ⟨s, step_nil hp⟩
  | cons c rest =>
    cases hd : decode c.word with
    | error e => exact ⟨_, step_error hp hd⟩
    | ok i =>
      obtain ⟨t, e, -⟩ := exec_effect i (s.take c.operands rest)
      exact ⟨t, (step_ok hp hd).trans e⟩

theorem run_next (n : Nat) (s : State) : ∃ t, run n s = .next t := by
  induction n generalizing s with
  | zero => exact ⟨s, rfl⟩
  | succ n ih =>
    obtain ⟨u, hstep⟩ := step_next s
    obtain ⟨t, hrun⟩ := ih u
    exact ⟨t, (run_succ n hstep).trans hrun⟩

/-- Settles O8: every step answers a next state; an operation that failed drove the result ports only, which no operation reads. -/
theorem nothingStopsTheBlock : Obligations.NothingStopsTheBlock := by
  refine ⟨run_next, fun i s t h hfailed => ?_⟩
  obtain ⟨c, rfl⟩ := conditionsWriteNoState i s t h hfailed
  exact (exec_setResults i s (.failed c)).trans h

/-! The diagnostic reads. -/

/-- Four bits hold every relay count (00_scope.md R12). -/
theorem Diagnostic.toNat_ndigi (s : State) : (Diagnostic.ndigi s).toNat = s.wp.ndigi.val := by
  rw [Diagnostic.ndigi, BitVec.toNat_ofNat, Nat.mod_eq_of_lt (by omega)]

/-- Nine bits hold every payload length (00_scope.md R12). -/
theorem Diagnostic.toNat_plen (s : State) : (Diagnostic.plen s).toNat = s.wp.plen.val := by
  rw [Diagnostic.plen, BitVec.toNat_ofNat, Nat.mod_eq_of_lt (by omega)]

/-- Settles O54: the reads are fields of the state, which PKT_INIT, Q_INIT and SET_PAYLOAD write. -/
theorem diagnosticReadsShowTheState : Obligations.DiagnosticReadsShowTheState := by
  refine ⟨fun s => ⟨rfl, rfl, Diagnostic.toNat_ndigi s, Diagnostic.toNat_plen s, fun _ => rfl, rfl, rfl⟩,
    fun s => ⟨_, _, exec_pktInit s, exec_qInit _, rfl, rfl, rfl, rfl, fun _ => rfl, rfl, rfl⟩, fun s hwf => ?_⟩
  obtain ⟨m, n, hexec, hn, hcopied, hkept, -⟩ := setPayloadCopiesAndTruncates.2 s hwf
  refine ⟨_, hexec, (Diagnostic.toNat_plen _).trans hn, fun i => ?_⟩
  rw [← hn]
  split
  case isTrue hi => exact hcopied i hi
  case isFalse hi => exact congrArg some (hkept i (not_lt.1 hi))

end Sys2Proof.Machine
